-- ==== Sys2Proof/Word.lean ====
section
/-! DEFINITION. The machine's word, byte and register-number types (00_scope.md R4, 10_state.md R20). -/

namespace Sys2Proof

/-- A Word: "16-bit unsigned value; all arithmetic is performed modulo 2^16" (00_scope.md R7). Also an address. -/
abbrev Word := BitVec 16

/-- A character, and a trap vector: 8 bits (00_scope.md R9, 40_decoder.md R121). -/
abbrev Byte := BitVec 8

/-- The number of a general register, the raw 3-bit slice (10_state.md R20, 40_decoder.md R102). -/
abbrev RegIdx := BitVec 3

end Sys2Proof
end

