-- ==== Sys2Proof/Machine/Bits.lean ====
section
/-! DEFINITION. Sign and zero extension and the placing of a field in a word (00_scope.md R6, R8, R9). -/

namespace Sys2Proof.Machine

/-- `sext_N` (00_scope.md R8): when the field's top bit is 1, bits 15 down to N are set too (90_conflicts.md C5),
otherwise the field stands unchanged. -/
def sext {n : Nat} (v : BitVec n) : Word :=
  if v.msb then ((0xFFFF : Word) <<< n) ||| v.setWidth 16 else v.setWidth 16

/-- `zext_8` (00_scope.md R9). -/
def zext8 (c : Byte) : Word := c.setWidth 16

/-- The low byte `w[7:0]` of a Word (44_trap_system.md R193). -/
def lowByte (w : Word) : Byte := w.extractLsb' 0 8

/-- A Word with the field `v` in the bits from `lo` up. The encoder ORs these together. -/
def place {n : Nat} (v : BitVec n) (lo : Nat) : Word := v.setWidth 16 <<< lo

/-- The Word is the sign extension of its own low `n` bits: it is a value an n-bit field can deliver (40_decoder.md R102). -/
def fitsSigned (n : Nat) (v : Word) : Bool := sext (v.setWidth n) == v

end Sys2Proof.Machine
end

