-- ==== Sys2Proof/Syntax.lean ====
section
/-! DEFINITION. The instructions: one constructor for each row of spec/opcode_table.json. -/

namespace Sys2Proof

/-- The twenty variants of the decoder's Operation (40_decoder.md R101), and the five trap services of the table, each with a
constructor of its own (44_trap_system.md R191). Immediates and offsets are the sign-extended 16-bit Words that an Operation
carries (40_decoder.md R102); a trap vector is the raw 8-bit slice. -/
inductive Instr where
  /-- ADD, register form (41_step_alu.md R133). -/
  | addRegMode (dr sr1 sr2 : RegIdx)
  /-- ADD, immediate form (41_step_alu.md R134). -/
  | addImmediateMode (dr sr1 : RegIdx) (imm5 : Word)
  /-- AND, register form (41_step_alu.md R135). -/
  | andRegMode (dr sr1 sr2 : RegIdx)
  /-- AND, immediate form (41_step_alu.md R136). -/
  | andImmediateMode (dr sr1 : RegIdx) (imm5 : Word)
  /-- NOT (41_step_alu.md R137). -/
  | not (dr sr : RegIdx)
  /-- BR (42_control.md R150). -/
  | br (n z p : Bool) (offset : Word)
  /-- JMP, base register 0..6 (42_control.md R152). -/
  | jmp (baseR : RegIdx)
  /-- RET (42_control.md R153). -/
  | ret
  /-- JSR (42_control.md R154). -/
  | jsr (offset : Word)
  /-- JSRR (42_control.md R155). -/
  | jsrr (baseR : RegIdx)
  /-- LD (43_load_store.md R170). -/
  | ld (dr : RegIdx) (offset : Word)
  /-- LDI (43_load_store.md R171). -/
  | ldi (dr : RegIdx) (offset : Word)
  /-- LDR (43_load_store.md R172). -/
  | ldr (dr baseR : RegIdx) (offset : Word)
  /-- LEA (43_load_store.md R173). -/
  | lea (dr : RegIdx) (offset : Word)
  /-- ST (43_load_store.md R174). -/
  | st (sr : RegIdx) (offset : Word)
  /-- STI (43_load_store.md R175). -/
  | sti (sr : RegIdx) (offset : Word)
  /-- STR (43_load_store.md R176). -/
  | str (sr baseR : RegIdx) (offset : Word)
  /-- TRAP with any vector (44_trap_system.md R190). -/
  | trap (vector : Byte)
  /-- TRAP 0x20 (44_trap_system.md R192). -/
  | getc
  /-- TRAP 0x21 (44_trap_system.md R193). -/
  | out
  /-- TRAP 0x22 (44_trap_system.md R194). -/
  | puts
  /-- TRAP 0x23, the table's IN (44_trap_system.md R195). -/
  | inp
  /-- TRAP 0x25 (44_trap_system.md R196). -/
  | halt
  /-- RTI (44_trap_system.md R198). -/
  | rti
  /-- RES, the reserved opcode (44_trap_system.md R199). -/
  | res
deriving DecidableEq, Repr

end Sys2Proof
end

