-- ==== Sys2Proof/WellFormed.lean ====
section
/-! DEFINITION. Which instructions some word encodes: the operand ranges of 30_encoding.md R85 and 40_decoder.md R101. -/

namespace Sys2Proof

open Sys2Proof.Machine

/-- The five vectors that have a service (44_trap_system.md R191); the table names each by a row of its own. -/
def servedVectors : List Byte := [0x20, 0x21, 0x22, 0x23, 0x25]

/-- An instruction as the decoder and the service rows produce it. `jmp` names 0..6, since base 7 is RET (40_decoder.md R109,
R110); `trap` names an unserved vector, since the served ones have constructors of their own (log 6); an immediate or offset
is the sign extension of a field of its width (30_encoding.md R85). -/
def Instr.wellFormed : Instr → Bool
  | .addRegMode _ _ _ => true
  | .addImmediateMode _ _ imm5 => fitsSigned 5 imm5
  | .andRegMode _ _ _ => true
  | .andImmediateMode _ _ imm5 => fitsSigned 5 imm5
  | .not _ _ => true
  | .br _ _ _ offset => fitsSigned 9 offset
  | .jmp baseR => baseR != 7
  | .ret => true
  | .jsr offset => fitsSigned 11 offset
  | .jsrr _ => true
  | .ld _ offset => fitsSigned 9 offset
  | .ldi _ offset => fitsSigned 9 offset
  | .ldr _ _ offset => fitsSigned 6 offset
  | .lea _ offset => fitsSigned 9 offset
  | .st _ offset => fitsSigned 9 offset
  | .sti _ offset => fitsSigned 9 offset
  | .str _ _ offset => fitsSigned 6 offset
  | .trap vector => !servedVectors.contains vector
  | .getc => true
  | .out => true
  | .puts => true
  | .inp => true
  | .halt => true
  | .rti => true
  | .res => true

end Sys2Proof
end

