-- ==== Sys2Proof/Decode.lean ====
section
/-! DEFINITION. The instruction decoder (40_decoder.md), the trap-service rows of the opcode table, and the encoder. -/

namespace Sys2Proof

open Sys2Proof.Machine

/-- DR, or the SR of a store: `instr[11:9]` (30_encoding.md R72). -/
def fieldDr (w : Word) : RegIdx := w.extractLsb' 9 3

/-- SR1, the source of NOT, or BaseR: `instr[8:6]` (30_encoding.md R72). -/
def fieldBase (w : Word) : RegIdx := w.extractLsb' 6 3

/-- SR2: `instr[2:0]` (30_encoding.md R72). -/
def fieldSr2 (w : Word) : RegIdx := w.extractLsb' 0 3

/-- imm5, sign-extended (30_encoding.md R85). -/
def fieldImm5 (w : Word) : Word := sext (w.extractLsb' 0 5)

/-- offset6, sign-extended for LDR and STR alike (30_encoding.md R81, 90_conflicts.md C4). -/
def fieldOffset6 (w : Word) : Word := sext (w.extractLsb' 0 6)

/-- PCoffset9, sign-extended (30_encoding.md R85). -/
def fieldOffset9 (w : Word) : Word := sext (w.extractLsb' 0 9)

/-- PCoffset11, sign-extended (30_encoding.md R85). -/
def fieldOffset11 (w : Word) : Word := sext (w.extractLsb' 0 11)

/-- trapvect8: `instr[7:0]`, not sign-extended (40_decoder.md R121). -/
def fieldVector (w : Word) : Byte := w.extractLsb' 0 8

/-- The decoder of the spec (40_decoder.md R103): sixteen arms on `instr[15:12]`, no default arm, no failure (R124). It gives
`trap` for every vector; the vector is not looked at here (R121). Opcode values: log 1 (PRESUMED, the spec's U10); polarity of
bit 11: log 2 (PRESUMED, U11); field positions: log 3 and 4; bits outside the fields are not examined: log 5. -/
def decodeOperation (w : Word) : Instr :=
  match w[15], w[14], w[13], w[12] with
  | false, false, false, true =>
    if w[5] then .addImmediateMode (fieldDr w) (fieldBase w) (fieldImm5 w)
    else .addRegMode (fieldDr w) (fieldBase w) (fieldSr2 w)
  | false, true, false, true =>
    if w[5] then .andImmediateMode (fieldDr w) (fieldBase w) (fieldImm5 w)
    else .andRegMode (fieldDr w) (fieldBase w) (fieldSr2 w)
  | false, false, false, false => .br w[11] w[10] w[9] (fieldOffset9 w)
  | true, true, false, false => if fieldBase w = 7 then .ret else .jmp (fieldBase w)
  | false, true, false, false => if w[11] then .jsr (fieldOffset11 w) else .jsrr (fieldBase w)
  | false, false, true, false => .ld (fieldDr w) (fieldOffset9 w)
  | true, false, true, false => .ldi (fieldDr w) (fieldOffset9 w)
  | false, true, true, false => .ldr (fieldDr w) (fieldBase w) (fieldOffset6 w)
  | true, true, true, false => .lea (fieldDr w) (fieldOffset9 w)
  | true, false, false, true => .not (fieldDr w) (fieldBase w)
  | false, false, true, true => .st (fieldDr w) (fieldOffset9 w)
  | true, false, true, true => .sti (fieldDr w) (fieldOffset9 w)
  | false, true, true, true => .str (fieldDr w) (fieldBase w) (fieldOffset6 w)
  | true, true, true, true => .trap (fieldVector w)
  | true, false, false, false => .rti
  | true, true, false, true => .res

/-- The service a vector names, as the table's row for it (44_trap_system.md R190, R191); none for an unserved vector (R197). -/
def serviceOf (vector : Byte) : Option Instr :=
  if vector = 0x20 then some .getc
  else if vector = 0x21 then some .out
  else if vector = 0x22 then some .puts
  else if vector = 0x23 then some .inp
  else if vector = 0x25 then some .halt
  else none

/-- The table's five service rows refine its TRAP row (30_encoding.md R91): a TRAP with a served vector is that service's
constructor, every other instruction is itself. DESIGN CHOICE, safe, log 6. -/
def selectService (i : Instr) : Instr :=
  match i with
  | .trap vector => (serviceOf vector).getD (.trap vector)
  | other => other

/-- The instruction of a word, as the table's most specific row names it: the spec's decoder, then the service rows. -/
def decode (w : Word) : Instr := selectService (decodeOperation w)

/-- The word of an instruction, from the patterns of 30_encoding.md R73 to R83. Ignored bits are 0, but for the low six bits of
NOT, which are 1 (R82): DESIGN CHOICE, safe, log 5. -/
def encode : Instr → Word
  | .addRegMode dr sr1 sr2 => 0x1000 ||| place dr 9 ||| place sr1 6 ||| place sr2 0
  | .addImmediateMode dr sr1 imm5 => 0x1020 ||| place dr 9 ||| place sr1 6 ||| place (imm5.setWidth 5) 0
  | .andRegMode dr sr1 sr2 => 0x5000 ||| place dr 9 ||| place sr1 6 ||| place sr2 0
  | .andImmediateMode dr sr1 imm5 => 0x5020 ||| place dr 9 ||| place sr1 6 ||| place (imm5.setWidth 5) 0
  | .not dr sr => 0x903F ||| place dr 9 ||| place sr 6
  | .br n z p offset =>
    0x0000 ||| place (BitVec.ofBool n) 11 ||| place (BitVec.ofBool z) 10 ||| place (BitVec.ofBool p) 9 |||
      place (offset.setWidth 9) 0
  | .jmp baseR => 0xC000 ||| place baseR 6
  | .ret => 0xC1C0
  | .jsr offset => 0x4800 ||| place (offset.setWidth 11) 0
  | .jsrr baseR => 0x4000 ||| place baseR 6
  | .ld dr offset => 0x2000 ||| place dr 9 ||| place (offset.setWidth 9) 0
  | .ldi dr offset => 0xA000 ||| place dr 9 ||| place (offset.setWidth 9) 0
  | .ldr dr baseR offset => 0x6000 ||| place dr 9 ||| place baseR 6 ||| place (offset.setWidth 6) 0
  | .lea dr offset => 0xE000 ||| place dr 9 ||| place (offset.setWidth 9) 0
  | .st sr offset => 0x3000 ||| place sr 9 ||| place (offset.setWidth 9) 0
  | .sti sr offset => 0xB000 ||| place sr 9 ||| place (offset.setWidth 9) 0
  | .str sr baseR offset => 0x7000 ||| place sr 9 ||| place baseR 6 ||| place (offset.setWidth 6) 0
  | .trap vector => 0xF000 ||| place vector 0
  | .getc => 0xF020
  | .out => 0xF021
  | .puts => 0xF022
  | .inp => 0xF023
  | .halt => 0xF025
  | .rti => 0x8000
  | .res => 0xD000

/-- The low `nbits` bits of `w` as the machine's one instruction word (30_encoding.md R70: every instruction is one 16-bit
Word; R50: no byte order inside the machine, so a table word is the memory word itself). -/
def tableWord (nbits w : Nat) : Word := BitVec.ofNat 16 (w % 2 ^ nbits)

/-- The instruction of an opcode-table word. None only for a number that is no 16-bit word: decoding never fails (R124). -/
def decodeTableWord (nbits w : Nat) : Option Instr :=
  if w % 2 ^ nbits < 65536 then some (decode (tableWord nbits w)) else none

end Sys2Proof
end

