-- ==== Sys2Proof/Config.lean ====
section
/-! DEFINITION. What is fixed for one machine: the reset address, and the values the spec leaves open, which have no body. -/

namespace Sys2Proof.Config

/-- RESET_PC (00_scope.md R4, 10_state.md R36). DESIGN CHOICE (the spec's own decision D6), unsafe, log 11: the constant,
not the image's origin. -/
def resetPc : Word := 0x3000

/-- HALT_MESSAGE (00_scope.md R5, 44_trap_system.md R196): an open parameter, a finite byte string. Log 26, safe. -/
opaque haltMessage : List Byte

/-- IN_PROMPT (00_scope.md R5, 44_trap_system.md R195): an open parameter, a finite byte string. Log 26, safe. -/
opaque inPrompt : List Byte

/-- A FREE VALUE: what the n-th read call beyond the listed answers gets from `HostTryRead` (20_memory.md R62; log 17, safe). -/
opaque pollAnswer : Nat → Option Byte

/-- A FREE VALUE: the character the n-th read call beyond the listed answers gets from `HostRead` (20_memory.md R62; log 17). -/
opaque readByte : Nat → Byte

end Sys2Proof.Config
end

