-- ==== Sys2Proof/Machine/State.lean ====
section
/-! DEFINITION. The machine's state as plain data, its stops, and the state after reset (10_state.md). -/

namespace Sys2Proof.Machine

/-- COND: exactly one of three flags (10_state.md R23). -/
inductive CondFlag where
  | n
  | z
  | p
deriving DecidableEq, Repr

/-- The ten names of the register file (10_state.md R30). -/
inductive RegName where
  | gpr (r : RegIdx)
  | pc
  | cond
deriving DecidableEq, Repr

/-- The run state (10_state.md R35). -/
inductive RunState where
  | running
  | halted
deriving DecidableEq, Repr

/-- The two fatal error kinds of a running machine (60_exceptions.md R220); IllegalInstruction carries the raw word (R221). -/
inductive FaultReason where
  | illegalInstruction (word : Word)
  | hostIOFailure
deriving DecidableEq, Repr

/-- The recorded fault: the address of the faulting instruction and the reason (60_exceptions.md R221, R222; log 24). -/
structure FaultRecord where
  pc : Word
  reason : FaultReason
deriving DecidableEq, Repr

/-- The outcome of a run (10_state.md R35, 41_step_alu.md R132). -/
inductive RunOutcome where
  | halted
  | fault (record : FaultRecord)
deriving DecidableEq, Repr

/-- One answer of the environment to a read call of the console (20_memory.md R62, R63). DESIGN CHOICE, safe, log 16. -/
inductive ConsoleAnswer where
  /-- A character has arrived and is the next of the one input stream. -/
  | char (c : Byte)
  /-- No character is waiting: a poll is told so; a blocking read waits on. -/
  | idle
  /-- The console is unavailable to this call: a poll counts it as no character, a blocking read fails (log 19). -/
  | unavailable
  /-- No character arrives any more: a poll finds none, a blocking read is never answered (log 20). -/
  | silent
deriving DecidableEq, Repr

/-- The host console as the model carries it: the environment's part, not the machine's (20_memory.md R62; log 16 to 19). -/
structure Console where
  /-- The answers to the coming read calls, oldest first. Beyond them an answer is a free value. -/
  input : List ConsoleAnswer
  /-- How many answers have been drawn beyond `input`: the index of the next free value. -/
  draws : Nat
  /-- After how many more successful writes `HostWrite` fails; none: it does not fail. -/
  writesUntilFailure : Option Nat
  /-- The bytes given to `HostWrite`, in the order of the calls. -/
  output : List Byte
deriving DecidableEq, Repr

/-- Memory as the cells whose content is not 0x0000, by rising address (20_memory.md R40; log 9 and 10). -/
abbrev Memory := List (Nat × Word)

/-- Everything the spec gives the machine (10_state.md R20 to R36, 20_memory.md R40), and the model's own fields. -/
structure State where
  /-- R0..R7 (10_state.md R20). -/
  regs : Vector Word 8
  /-- PC (10_state.md R22). -/
  pc : Word
  /-- COND (10_state.md R23). -/
  cond : CondFlag
  /-- The memory array, the hidden cells at the device addresses included (20_memory.md R40, R48). -/
  mem : Memory
  /-- The keyboard latch's ready bit (10_state.md R34). -/
  kbReady : Bool
  /-- The keyboard latch's character (10_state.md R34). -/
  kbData : Byte
  /-- The run state (10_state.md R35). -/
  run : RunState
  /-- The recorded fault of a run that a fault ended (10_state.md R35, 60_exceptions.md R225). -/
  fault : Option FaultRecord
  /-- The model's own: `a`, the address the sequencer keeps for the duration of a step (41_step_alu.md R130; log 29). -/
  fetchAddr : Word
  /-- The model's own: `instr`, the raw word the sequencer keeps for the duration of a step (41_step_alu.md R130; log 29). -/
  fetchWord : Word
  /-- The model's own: the environment's part of the machine's interface (20_memory.md R62; log 16). -/
  console : Console
deriving DecidableEq, Repr

/-- The stops of the model: steps that the spec says never complete. -/
inductive Fault where
  /-- Raised by GETC and IN when `HostRead` is never answered (20_memory.md R62: "the step never completes (a hang, not a
  fault)"). Safe: the model stops where the hardware waits for ever. Log 20. -/
  | hostReadBlocked
  /-- Raised by PUTS when it finds no zero word (44_trap_system.md R194, D24: a hang inside one step) and no
  write that fails. Safe: the model stops where the hardware goes on for ever, or where a free answer of the console could still
  end it. Log 21. -/
  | putsUnending
deriving DecidableEq, Repr

/-- The refusals of the model. -/
inductive Refusal where
  /-- Raised only by an arm of `exec` for an instruction that has no meaning yet: none here. Safe. -/
  | notModelled (mnemonic : String)
deriving DecidableEq, Repr

/-- What a step or a meaning answers. -/
abbrev Result := Host.Outcome State Fault Refusal

/-- The console a run starts with unless it is given another: no listed answer, no write failure, nothing written.
DESIGN CHOICE, unsafe, log 18. -/
def Console.initial : Console :=
  { input := [], draws := 0, writesUntilFailure := none, output := [] }

/-- The state after reset (10_state.md R36). R0..R7: DESIGN CHOICE (the spec's D4), unsafe, log 8. Memory: DESIGN CHOICE (the
spec's D5), unsafe, log 9. PC: log 11. Latch: log 15. `fetchAddr`, `fetchWord`: log 29. Console: log 18. -/
def State.reset : State :=
  { regs := Vector.replicate 8 0
    pc := Config.resetPc
    cond := .z
    mem := []
    kbReady := false
    kbData := 0
    run := .running
    fault := none
    fetchAddr := 0
    fetchWord := 0
    console := Console.initial }

end Sys2Proof.Machine
end

