-- ==== Sys2Proof/Machine/Flags.lean ====
section
/-! DEFINITION. The flag function, COND as a Word, and the branch test (10_state.md R23, R26; 42_control.md R150). -/

namespace Sys2Proof.Machine

/-- `flags(v)` (10_state.md R26). -/
def flags (v : Word) : CondFlag :=
  if v = 0 then .z else if v[15] then .n else .p

/-- COND as the Word of its register slot (10_state.md R23). DESIGN CHOICE (the spec's own decision D1), safe, log 7. -/
def CondFlag.toWord : CondFlag → Word
  | .n => 0x0004
  | .z => 0x0002
  | .p => 0x0001

/-- `taken` of BR: a requested flag is the one that is set (42_control.md R150, R151). -/
def branchTaken (n z p : Bool) : CondFlag → Bool
  | .n => n
  | .z => z
  | .p => p

end Sys2Proof.Machine
end

