-- ==== Sys2Proof/Machine/Ops.lean ====
section
/-! DEFINITION. The named operations over registers, memory, the keyboard latch and the console; raising a fault; fetching. -/

namespace Sys2Proof.Machine

/-! ### The register file (10_state.md R24 to R31) -/

/-- `get(Ri)`: pure, no side effect (10_state.md R24). -/
def State.getReg (s : State) (r : RegIdx) : Word := s.regs[r.toNat]'r.isLt

/-- `set(Ri, v)`: the only write path to a general register; COND is recomputed in the same update (10_state.md R25). That this
covers the link writes and the service writes is the spec's own reading D13: DESIGN CHOICE, unsafe, log 22. -/
def State.setReg (s : State) (r : RegIdx) (v : Word) : State :=
  { s with regs := s.regs.set r.toNat v r.isLt, cond := flags v }

/-- `set(PC, v)`: touches nothing else (10_state.md R27). -/
def State.setPc (s : State) (v : Word) : State := { s with pc := v }

/-- The slot of each of the ten names (10_state.md R30). DESIGN CHOICE (the spec's own decision D2), safe, log 7. -/
def RegName.slot : RegName → Nat
  | .gpr r => r.toNat
  | .pc => 8
  | .cond => 9

/-- `get(reg)`: the read port of the register file for any of the ten slots (10_state.md R24). There is no write port for COND
(R31; log 7). -/
def State.get (s : State) : RegName → Word
  | .gpr r => s.getReg r
  | .pc => s.pc
  | .cond => s.cond.toWord

/-- The link write `x[7] <- pc` of JSR, JSRR and TRAP (42_control.md R154, R155; 44_trap_system.md R190). -/
def State.link (s : State) : State := s.setReg 7 s.pc

/-! ### The memory array (20_memory.md R40 to R44) -/

/-- What a cell that is not listed reads as: 0x0000, the reset content (10_state.md R36). DESIGN CHOICE (D5), unsafe, log 9. -/
def unlistedWord : Word := 0

/-- The content of the array cell with this number. -/
def Memory.read : Memory → Nat → Word
  | [], _ => unlistedWord
  | (a, v) :: rest, k => if a = k then v else Memory.read rest k

/-- The array with the cell `k` set to `v`, in canonical form again: a cell that holds `unlistedWord` is not listed. -/
def Memory.write : Memory → Nat → Word → Memory
  | [], k, v => if v = unlistedWord then [] else [(k, v)]
  | (a, u) :: rest, k, v =>
    if k < a then (if v = unlistedWord then (a, u) :: rest else (k, v) :: (a, u) :: rest)
    else if k = a then (if v = unlistedWord then rest else (k, v) :: rest)
    else (a, u) :: Memory.write rest k v

/-- Canonical from `lo` up: addresses strictly rising, none below `lo`, all below 65536, no entry equal to `unlistedWord`. -/
def Memory.wfFrom : Nat → Memory → Bool
  | _, [] => true
  | lo, (a, v) :: rest => decide (lo ≤ a) && decide (a < 65536) && decide (v ≠ unlistedWord) && Memory.wfFrom (a + 1) rest

/-- The canonical form of memory. -/
def Memory.wf (m : Memory) : Bool := m.wfFrom 0

/-- The content of the array cell at an address, the hidden cells at the device addresses included: what memory HOLDS, which
at 0xFE00 and 0xFE02 is not what a read answers (20_memory.md R48). A view for statements; no instruction reads this way. -/
def State.cell (s : State) (a : Word) : Word := s.mem.read a.toNat

/-- `write(a, v)`: stores the Word and does nothing else, at every address (20_memory.md R44; at the device addresses R48, the
spec's own decision D9: DESIGN CHOICE, safe, log 14). -/
def State.memWrite (s : State) (a : Word) (v : Word) : State := { s with mem := s.mem.write a.toNat v }

/-! ### The console's three operations (20_memory.md R61 to R63) -/

/-- `HostTryRead()`: returns at once, some character or none (20_memory.md R61, R62). An unavailable console counts as no
character (R45, D20). Beyond the listed answers the answer is a free value (log 17). -/
def State.hostTryRead (s : State) : Option Byte × State :=
  match s.console.input with
  | .char c :: rest => (some c, { s with console := { s.console with input := rest } })
  | .idle :: rest => (none, { s with console := { s.console with input := rest } })
  | .unavailable :: rest => (none, { s with console := { s.console with input := rest } })
  | .silent :: _ => (none, s)
  | [] => (Config.pollAnswer s.console.draws, { s with console := { s.console with draws := s.console.draws + 1 } })

/-- How a call of `HostRead` goes. -/
inductive HostReadResult where
  /-- The host yields a character. -/
  | yields (c : Byte) (s : State)
  /-- The console is unavailable (20_memory.md R63). -/
  | fails (s : State)
  /-- The host never yields a character (20_memory.md R62). -/
  | blocks
deriving DecidableEq, Repr

/-- `HostRead` over the answers still to come: it waits past every moment at which no character is there. -/
def State.hostReadFrom (s : State) : List ConsoleAnswer → HostReadResult
  | .char c :: rest => .yields c { s with console := { s.console with input := rest } }
  | .idle :: rest => s.hostReadFrom rest
  | .unavailable :: rest => .fails { s with console := { s.console with input := rest } }
  | .silent :: _ => .blocks
  | [] =>
    .yields (Config.readByte s.console.draws)
      { s with console := { s.console with input := [], draws := s.console.draws + 1 } }

/-- `HostRead()`: blocks until the host yields a character, from the same input stream as `HostTryRead` (20_memory.md R61, R62;
the spec's own decision D12: DESIGN CHOICE, unsafe, log 16). -/
def State.hostRead (s : State) : HostReadResult := s.hostReadFrom s.console.input

/-- How the writing of bytes to the console goes; a failure keeps the bytes already written (60_exceptions.md R222). -/
inductive HostWriteResult where
  | written (s : State)
  | fails (s : State)
deriving DecidableEq, Repr

/-- `HostWrite(c)`: one byte, at the end of the output stream, unless the environment makes the call fail (20_memory.md R62,
R63; log 19). -/
def State.hostWrite (s : State) (c : Byte) : HostWriteResult :=
  match s.console.writesUntilFailure with
  | none => .written { s with console := { s.console with output := s.console.output ++ [c] } }
  | some (n + 1) =>
    .written { s with console := { s.console with output := s.console.output ++ [c], writesUntilFailure := some n } }
  | some 0 => .fails s

/-- `HostWrite` for each byte in order, up to the first failing call (44_trap_system.md R195, R196), in closed form; that it is
the loop is a statement of its own (Obligations.WritingBytesIsTheLoop). -/
def State.hostWriteAll (s : State) (bytes : List Byte) : HostWriteResult :=
  match s.console.writesUntilFailure with
  | none => .written { s with console := { s.console with output := s.console.output ++ bytes } }
  | some n =>
    if bytes.length ≤ n then
      .written
        { s with
          console :=
            { s.console with
              output := s.console.output ++ bytes, writesUntilFailure := some (n - bytes.length) } }
    else
      .fails
        { s with
          console := { s.console with output := s.console.output ++ bytes.take n, writesUntilFailure := some 0 } }

/-! ### The read path with its two intercepted addresses (20_memory.md R42 to R47) -/

/-- KBSR_ADDR (00_scope.md R4). -/
def kbsrAddr : Word := 0xFE00

/-- KBDR_ADDR (00_scope.md R4). -/
def kbdrAddr : Word := 0xFE02

/-- The address is one of the two that the read path intercepts (20_memory.md R42). -/
def isDevice (a : Word) : Bool := a == kbsrAddr || a == kbdrAddr

/-- `KBSR_read()` (20_memory.md R45). A latched character is kept and the host not asked again (D7), bits 14..0 are zero (D10):
DESIGN CHOICE (the spec's own decisions), unsafe, log 12. -/
def State.kbsrRead (s : State) : Word × State :=
  if s.kbReady then (0x8000, s)
  else
    match s.hostTryRead with
    | (some c, t) => (0x8000, { t with kbReady := true, kbData := c })
    | (none, t) => (0x0000, t)

/-- `KBDR_read()` (20_memory.md R46). With nothing latched it answers the stale character (D8): DESIGN CHOICE (the spec's own
decision), unsafe, log 13. -/
def State.kbdrRead (s : State) : Word × State := (zext8 s.kbData, { s with kbReady := false })

/-- `MemRead(a, 16)`: the one read path of fetches and data reads (20_memory.md R42, R43). -/
def State.memRead (s : State) (a : Word) : Word × State :=
  if a = kbsrAddr then s.kbsrRead
  else if a = kbdrAddr then s.kbdrRead
  else (s.cell a, s)

/-! ### Taking a fatal fault (60_exceptions.md R221, R222, R225) -/

/-- `raise`: the run state becomes halted and the fault is recorded with the address of the instruction in flight; nothing is
saved in a register, control goes nowhere, and earlier effects stay (60_exceptions.md R225). The recorded address and the kept
effects are the spec's own decisions D17 and D18: DESIGN CHOICE, unsafe, log 24 and 25. There is NO return: a TRAP needs none,
RTI is not executable, and nothing resumes a halted machine (60_exceptions.md R228, R229). -/
def State.raise (s : State) (reason : FaultReason) : State :=
  { s with run := .halted, fault := some { pc := s.fetchAddr, reason := reason } }

/-- `raise IllegalInstruction(a, instr)` (60_exceptions.md R221). -/
def State.raiseIllegal (s : State) : State := s.raise (.illegalInstruction s.fetchWord)

/-- `run <- halted` (44_trap_system.md R196). -/
def State.halt (s : State) : State := { s with run := .halted }

/-- The outcome of the run once the machine is halted (41_step_alu.md R132); none while it runs. -/
def State.outcome (s : State) : Option RunOutcome :=
  match s.run, s.fault with
  | .running, _ => none
  | .halted, none => some .halted
  | .halted, some record => some (.fault record)

/-! ### The fetch (41_step_alu.md R130, 10_state.md R28) -/

/-- The fetch phase of a step: read at PC through the intercepted path (D28, log 28), increment PC modulo 2^16, and keep the
address and the raw word for the duration of the step. -/
def State.fetch (s : State) : Word × State :=
  let read := s.memRead s.pc
  (read.1, { read.2 with pc := s.pc + 1, fetchAddr := s.pc, fetchWord := read.1 })

/-- A state that will fetch a word from the array: running, and with PC at an address that is not intercepted. A state that is
so already is left as it is (log 31). -/
def State.readyToFetch (s : State) : State :=
  let t :=
    match s.run with
    | .running => s
    | .halted => { s with run := .running, fault := none }
  if isDevice t.pc then t.setPc Config.resetPc else t

/-- The state with `w` placed where the next fetch reads it (log 31). -/
def State.placeFetchWord (s : State) (w : Word) : State :=
  let t := s.readyToFetch
  t.memWrite t.pc w

end Sys2Proof.Machine
end

