-- ==== Sys2Proof/Machine/Operands.lean ====
section
/-! DEFINITION. The four ways an address is formed (43_load_store.md R177). Every sum is modulo 2^16. -/

namespace Sys2Proof.Machine

/-- PC-relative: the incremented PC plus the sign-extended offset (43_load_store.md R177, 10_state.md R28). -/
def State.pcRelative (s : State) (offset : Word) : Word := s.pc + offset

/-- Base + offset: the base register's value plus the sign-extended offset (43_load_store.md R177). -/
def State.baseOffset (s : State) (baseR : RegIdx) (offset : Word) : Word := s.getReg baseR + offset

/-- Indirect: the Word read from the PC-relative address, and the state after that read, which may poll or consume the keyboard
(43_load_store.md R177, R171, R175). -/
def State.indirect (s : State) (offset : Word) : Word × State := s.memRead (s.pcRelative offset)

end Sys2Proof.Machine
end

