-- ==== Sys2Proof/Machine/Control.lean ====
section
/-! DEFINITION. BR, JMP, RET, JSR, JSRR (42_control.md R150 to R155). `s.pc` is the already-incremented PC. -/

namespace Sys2Proof.Machine

/-- BR (42_control.md R150). -/
def execBr (n z p : Bool) (offset : Word) (s : State) : Result :=
  if branchTaken n z p s.cond then .next (s.setPc (s.pcRelative offset)) else .next s

/-- JMP (42_control.md R152). -/
def execJmp (baseR : RegIdx) (s : State) : Result := .next (s.setPc (s.getReg baseR))

/-- RET: exactly JMP with base register 7 (42_control.md R153). -/
def execRet (s : State) : Result := .next (s.setPc (s.getReg 7))

/-- JSR: the link, then the jump from the same incremented PC (42_control.md R154; COND by the link write: log 22). -/
def execJsr (offset : Word) (s : State) : Result :=
  .next (s.link.setPc (s.link.pcRelative offset))

/-- JSRR: the link first, then the base register is read (42_control.md R155). DESIGN CHOICE (the spec's own decision D14),
unsafe, log 23. -/
def execJsrr (baseR : RegIdx) (s : State) : Result :=
  .next (s.link.setPc (s.link.getReg baseR))

end Sys2Proof.Machine
end

