-- ==== Sys2Proof/Machine/LoadStore.lean ====
section
/-! DEFINITION. LD, LDI, LDR, LEA, ST, STI, STR (43_load_store.md R170 to R176). -/

namespace Sys2Proof.Machine

/-- `x[dr] <- MemRead(a, 16)`: the shared body of the loads. -/
def State.loadReg (s : State) (dr : RegIdx) (a : Word) : State :=
  let read := s.memRead a
  read.2.setReg dr read.1

/-- LD (43_load_store.md R170). -/
def execLd (dr : RegIdx) (offset : Word) (s : State) : Result :=
  .next (s.loadReg dr (s.pcRelative offset))

/-- LDI: two reads in sequence, the pointer and then the value (43_load_store.md R171). -/
def execLdi (dr : RegIdx) (offset : Word) (s : State) : Result :=
  let pointer := s.indirect offset
  .next (pointer.2.loadReg dr pointer.1)

/-- LDR: the offset is sign-extended (43_load_store.md R172, 90_conflicts.md C4). -/
def execLdr (dr baseR : RegIdx) (offset : Word) (s : State) : Result :=
  .next (s.loadReg dr (s.baseOffset baseR offset))

/-- LEA: no memory access (43_load_store.md R173). -/
def execLea (dr : RegIdx) (offset : Word) (s : State) : Result :=
  .next (s.setReg dr (s.pcRelative offset))

/-- ST (43_load_store.md R174). -/
def execSt (sr : RegIdx) (offset : Word) (s : State) : Result :=
  .next (s.memWrite (s.pcRelative offset) (s.getReg sr))

/-- STI: one read of the pointer, then the write (43_load_store.md R175). -/
def execSti (sr : RegIdx) (offset : Word) (s : State) : Result :=
  let pointer := s.indirect offset
  .next (pointer.2.memWrite pointer.1 (pointer.2.getReg sr))

/-- STR (43_load_store.md R176). -/
def execStr (sr baseR : RegIdx) (offset : Word) (s : State) : Result :=
  .next (s.memWrite (s.baseOffset baseR offset) (s.getReg sr))

end Sys2Proof.Machine
end

