-- ==== Sys2Proof/Machine/Operate.lean ====
section
/-! DEFINITION. ADD, AND, NOT (41_step_alu.md R133 to R137). Sources are read before the destination is written. -/

namespace Sys2Proof.Machine

/-- ADD, register form (41_step_alu.md R133). -/
def execAddRegMode (dr sr1 sr2 : RegIdx) (s : State) : Result :=
  .next (s.setReg dr (s.getReg sr1 + s.getReg sr2))

/-- ADD, immediate form (41_step_alu.md R134). -/
def execAddImmediateMode (dr sr1 : RegIdx) (imm5 : Word) (s : State) : Result :=
  .next (s.setReg dr (s.getReg sr1 + imm5))

/-- AND, register form (41_step_alu.md R135). -/
def execAndRegMode (dr sr1 sr2 : RegIdx) (s : State) : Result :=
  .next (s.setReg dr (s.getReg sr1 &&& s.getReg sr2))

/-- AND, immediate form (41_step_alu.md R136). -/
def execAndImmediateMode (dr sr1 : RegIdx) (imm5 : Word) (s : State) : Result :=
  .next (s.setReg dr (s.getReg sr1 &&& imm5))

/-- NOT (41_step_alu.md R137). -/
def execNot (dr sr : RegIdx) (s : State) : Result :=
  .next (s.setReg dr (~~~(s.getReg sr)))

end Sys2Proof.Machine
end

