-- ==== Sys2Proof/Machine/System.lean ====
section
/-! DEFINITION. RTI and RES (44_trap_system.md R198, R199): each takes the IllegalInstruction fault; nothing else changes. -/

namespace Sys2Proof.Machine

/-- RTI (44_trap_system.md R198). -/
def execRti (s : State) : Result := .next s.raiseIllegal

/-- RES, the reserved opcode (44_trap_system.md R199). -/
def execRes (s : State) : Result := .next s.raiseIllegal

end Sys2Proof.Machine
end

