-- ==== Sys2Proof/Machine/Trap.lean ====
section
/-! DEFINITION. TRAP and its five services (44_trap_system.md R190 to R197). A service runs on the state after the link write. -/

namespace Sys2Proof.Machine

/-- GETC's own part (44_trap_system.md R192): the character comes from `HostRead`, not from the latch (D12, log 16). -/
def serviceGetc (s : State) : Result :=
  match s.hostRead with
  | .yields c t => .next (t.setReg 0 (zext8 c))
  | .fails t => .next (t.raise .hostIOFailure)
  | .blocks => .fault .hostReadBlocked

/-- OUT's own part (44_trap_system.md R193). -/
def serviceOut (s : State) : Result :=
  match s.hostWrite (lowByte (s.getReg 0)) with
  | .written t => .next t
  | .fails t => .next (t.raise .hostIOFailure)

/-- PUTS's loop from the address `p` (44_trap_system.md R194), for at most `fuel` reads. -/
def putsLoop : Nat → Word → State → Result
  | 0, _, _ => .fault .putsUnending
  | fuel + 1, p, s =>
    if (s.memRead p).1 = 0 then .next (s.memRead p).2
    else
      match (s.memRead p).2.hostWrite (lowByte (s.memRead p).1) with
      | .written t => putsLoop fuel (p + 1) t
      | .fails t => .next (t.raise .hostIOFailure)

/-- Enough reads for PUTS to end whenever an ordinary cell is zero, a counted write fails (each non-zero read uses up one), or the
listed answers let it end (each pass over the address space but the first uses up one at 0xFE00). With none of these only the
free answer of a later poll could still end it; there the model stops. DESIGN CHOICE (20_memory.md R63, 60_exceptions.md R222 and
D24 give no bound), safe, log 21. -/
def putsFuel (s : State) : Nat := 65536 * (s.console.input.length + 2) + s.console.writesUntilFailure.getD 0

/-- PUTS's own part (44_trap_system.md R194). -/
def servicePuts (s : State) : Result := putsLoop (putsFuel s) (s.getReg 0) s

/-- IN's own part (44_trap_system.md R195): the prompt, the read, the echo, then R0. -/
def serviceIn (s : State) : Result :=
  match s.hostWriteAll Config.inPrompt with
  | .fails t => .next (t.raise .hostIOFailure)
  | .written t =>
    match t.hostRead with
    | .fails u => .next (u.raise .hostIOFailure)
    | .blocks => .fault .hostReadBlocked
    | .yields c u =>
      match u.hostWrite c with
      | .fails v => .next (v.raise .hostIOFailure)
      | .written v => .next (v.setReg 0 (zext8 c))

/-- HALT's own part (44_trap_system.md R196): the message, then halted; a failing console ends the run as a fault instead. -/
def serviceHalt (s : State) : Result :=
  match s.hostWriteAll Config.haltMessage with
  | .written t => .next t.halt
  | .fails t => .next (t.raise .hostIOFailure)

/-- TRAP (44_trap_system.md R190): the link write, then the vector's service; an unserved vector raises IllegalInstruction after
the link write (R197). -/
def execTrap (vector : Byte) (s : State) : Result :=
  if vector = 0x20 then serviceGetc s.link
  else if vector = 0x21 then serviceOut s.link
  else if vector = 0x22 then servicePuts s.link
  else if vector = 0x23 then serviceIn s.link
  else if vector = 0x25 then serviceHalt s.link
  else .next s.link.raiseIllegal

/-- GETC (44_trap_system.md R190, R192). -/
def execGetc (s : State) : Result := serviceGetc s.link

/-- OUT (44_trap_system.md R190, R193). -/
def execOut (s : State) : Result := serviceOut s.link

/-- PUTS (44_trap_system.md R190, R194). -/
def execPuts (s : State) : Result := servicePuts s.link

/-- IN (44_trap_system.md R190, R195). -/
def execIn (s : State) : Result := serviceIn s.link

/-- HALT (44_trap_system.md R190, R196). -/
def execHalt (s : State) : Result := serviceHalt s.link

end Sys2Proof.Machine
end

