-- ==== Sys2Proof/Machine/Dispatch.lean ====
section
/-! DEFINITION. The dispatch of 41_step_alu.md R130: one arm for each constructor of Instr. -/

namespace Sys2Proof.Machine

def exec (i : Instr) (s : State) : Host.Outcome State Fault Refusal :=
  match i with
  | .addRegMode dr sr1 sr2 => Sys2Proof.Machine.execAddRegMode dr sr1 sr2 s
  | .addImmediateMode dr sr1 imm5 => Sys2Proof.Machine.execAddImmediateMode dr sr1 imm5 s
  | .andRegMode dr sr1 sr2 => Sys2Proof.Machine.execAndRegMode dr sr1 sr2 s
  | .andImmediateMode dr sr1 imm5 => Sys2Proof.Machine.execAndImmediateMode dr sr1 imm5 s
  | .not dr sr => Sys2Proof.Machine.execNot dr sr s
  | .br n z p offset => Sys2Proof.Machine.execBr n z p offset s
  | .jmp baseR => Sys2Proof.Machine.execJmp baseR s
  | .ret => Sys2Proof.Machine.execRet s
  | .jsr offset => Sys2Proof.Machine.execJsr offset s
  | .jsrr baseR => Sys2Proof.Machine.execJsrr baseR s
  | .ld dr offset => Sys2Proof.Machine.execLd dr offset s
  | .ldi dr offset => Sys2Proof.Machine.execLdi dr offset s
  | .ldr dr baseR offset => Sys2Proof.Machine.execLdr dr baseR offset s
  | .lea dr offset => Sys2Proof.Machine.execLea dr offset s
  | .st sr offset => Sys2Proof.Machine.execSt sr offset s
  | .sti sr offset => Sys2Proof.Machine.execSti sr offset s
  | .str sr baseR offset => Sys2Proof.Machine.execStr sr baseR offset s
  | .trap vector => Sys2Proof.Machine.execTrap vector s
  | .getc => Sys2Proof.Machine.execGetc s
  | .out => Sys2Proof.Machine.execOut s
  | .puts => Sys2Proof.Machine.execPuts s
  | .inp => Sys2Proof.Machine.execIn s
  | .halt => Sys2Proof.Machine.execHalt s
  | .rti => Sys2Proof.Machine.execRti s
  | .res => Sys2Proof.Machine.execRes s

end Sys2Proof.Machine
end

