-- ==== Sys2Proof/Machine/Step.lean ====
section
/-! DEFINITION. The step (41_step_alu.md R130), and the placing of the next instruction word. -/

namespace Sys2Proof.Machine

/-- One step. While running: fetch, increment PC, decode, execute (41_step_alu.md R130). Once halted no step is taken and no
state changes (60_exceptions.md R229), which is the state itself here: DESIGN CHOICE, safe, log 30. -/
def step (s : State) : Host.Outcome State Fault Refusal :=
  match s.run with
  | .halted => .next s
  | .running => exec (decode s.fetch.1) s.fetch.2

/-- The state with a table word stored where `step` fetches its next instruction; it stands for the load of a program (log 31).
A running state with PC at an ordinary address changes in that one memory cell only. -/
def State.withFetchWord (s : State) (nbits w : Nat) : State := s.placeFetchWord (tableWord nbits w)

end Sys2Proof.Machine
end

