-- ==== Sys2Proof/Machine/Loader.lean ====
section
/-! DEFINITION. The image loader, the boot interface (70_reset_and_hazards.md R251 to R254). -/

namespace Sys2Proof.Machine

/-- The one error of loading (60_exceptions.md R223): memory is left as it was and no step is taken. -/
inductive LoadError where
  | malformedImage
deriving DecidableEq, Repr

/-- A Word of the image from its two bytes, the first the high one (70_reset_and_hazards.md R253). -/
def bigEndianWord (hi lo : Byte) : Word := (hi.setWidth 16 <<< 8) ||| lo.setWidth 16

/-- The image's words; none when the number of bytes is odd (70_reset_and_hazards.md R253). -/
def imageWords : List Byte → Option (List Word)
  | [] => some []
  | [_] => none
  | hi :: lo :: rest => (imageWords rest).map (bigEndianWord hi lo :: ·)

/-- The words stored one after another from `a` up, modulo 2^16 (70_reset_and_hazards.md R254; wrapping is the spec's own
decision D21: DESIGN CHOICE, unsafe, log 27). -/
def State.storeWords (s : State) (a : Word) : List Word → State
  | [] => s
  | w :: ws => (s.memWrite a w).storeWords (a + 1) ws

/-- `load(image_bytes)` (70_reset_and_hazards.md R252): an origin and at least one word, or MalformedImage with no state. It
changes memory only (R251; log 11). -/
def State.loadImage (s : State) (bytes : List Byte) : Except LoadError State :=
  match imageWords bytes with
  | some (origin :: w :: ws) => .ok (s.storeWords origin (w :: ws))
  | some [_] => .error .malformedImage
  | some [] => .error .malformedImage
  | none => .error .malformedImage

/-- Bring-up: reset, then the load of one image (70_reset_and_hazards.md R251); the run is then `step` again and again. -/
def boot (bytes : List Byte) : Except LoadError State := State.reset.loadImage bytes

end Sys2Proof.Machine
end

