-- ==== Sys2Proof/Safety.lean ====
section
/-! DEFINITION. What claims call a sound state and a successful end of a run. -/

namespace Sys2Proof.Safety

open Sys2Proof.Machine

/-- The invariant of the model: memory is in canonical form (equal memories are equal data), and a recorded fault means that the
machine is halted (10_state.md R35: a fault is recorded when the run state becomes halted). That COND is exactly one flag
(10_state.md R23) is in its type. -/
def Sound (s : State) : Prop := s.mem.wf = true ∧ (s.fault ≠ none → s.run = .halted)

/-- The only successful end: halted without a fault (60_exceptions.md R229). -/
def SuccessfulEnd (s : State) : Prop := s.outcome = some .halted

/-- A step that completes: it neither waits for ever nor is refused. -/
def StepCompletes (s : State) : Prop := ∃ t, step s = .next t

end Sys2Proof.Safety
end

