-- ==== Sys2Proof/Certificates/Slice0/Obligations.lean ====
section
/-! DEFINITION. The statements about the model, for the provers. -/

namespace Sys2Proof.Claims

open Sys2Proof.Machine

/-- The bits of a word that choose its operation and fill its fields: all but the ignored ones (30_encoding.md R86). -/
def examinedBits (w : Word) : Word :=
  if w.extractLsb' 12 4 = 0b0001#4 ∨ w.extractLsb' 12 4 = 0b0101#4 then (if w[5] then 0xFFFF else 0xFFE7)
  else if w.extractLsb' 12 4 = 0b1001#4 then 0xFFC0
  else if w.extractLsb' 12 4 = 0b1100#4 then 0xF1C0
  else if w.extractLsb' 12 4 = 0b0100#4 then (if w[11] then 0xFFFF else 0xF9C0)
  else if w.extractLsb' 12 4 = 0b1111#4 then 0xF0FF
  else if w.extractLsb' 12 4 = 0b1000#4 ∨ w.extractLsb' 12 4 = 0b1101#4 then 0xF000
  else 0xFFFF

/-- The instruction may write this general register (the "named dest reg", "R7" and "R0" columns of 10_state.md R32). -/
def mayWrite (i : Instr) (r : RegIdx) : Prop :=
  match i with
  | .addRegMode dr _ _ => r = dr
  | .addImmediateMode dr _ _ => r = dr
  | .andRegMode dr _ _ => r = dr
  | .andImmediateMode dr _ _ => r = dr
  | .not dr _ => r = dr
  | .ld dr _ => r = dr
  | .ldi dr _ => r = dr
  | .ldr dr _ _ => r = dr
  | .lea dr _ => r = dr
  | .jsr _ => r = 7
  | .jsrr _ => r = 7
  | .out => r = 7
  | .puts => r = 7
  | .halt => r = 7
  | .getc => r = 7 ∨ r = 0
  | .inp => r = 7 ∨ r = 0
  | .trap vector => r = 7 ∨ (r = 0 ∧ (vector = 0x20 ∨ vector = 0x23))
  | .br _ _ _ _ => False
  | .jmp _ => False
  | .ret => False
  | .st _ _ => False
  | .sti _ _ => False
  | .str _ _ _ => False
  | .rti => False
  | .res => False

/-- The instruction is TRAP or one of its services. -/
def isTrap (i : Instr) : Prop :=
  i = .getc ∨ i = .out ∨ i = .puts ∨ i = .inp ∨ i = .halt ∨ ∃ vector, i = .trap vector

/-- The instruction overwrites the incremented PC (10_state.md R28). -/
def setsPc (i : Instr) : Prop :=
  (∃ n z p offset, i = .br n z p offset) ∨ (∃ r, i = .jmp r) ∨ i = .ret ∨ (∃ offset, i = .jsr offset) ∨ ∃ r, i = .jsrr r

/-- The instruction reads memory after its fetch (20_memory.md R55). -/
def readsMemory (i : Instr) : Prop :=
  (∃ dr offset, i = .ld dr offset) ∨ (∃ dr offset, i = .ldi dr offset) ∨ (∃ dr r offset, i = .ldr dr r offset) ∨
    (∃ sr offset, i = .sti sr offset) ∨ i = .puts ∨ i = .trap 0x22

/-- The instruction writes memory (20_memory.md R55). -/
def storesMemory (i : Instr) : Prop :=
  (∃ sr offset, i = .st sr offset) ∨ (∃ sr offset, i = .sti sr offset) ∨ ∃ sr r offset, i = .str sr r offset

/-- A TRAP with an unserved vector, RTI and RES raise IllegalInstruction (60_exceptions.md R221). -/
def isIllegal (i : Instr) : Prop :=
  i = .rti ∨ i = .res ∨ ∃ vector, i = .trap vector ∧ serviceOf vector = none

/-- The instruction writes R0 after the link: the services GETC and IN (44_trap_system.md R192, R195). -/
def writesR0 (i : Instr) : Prop := i = .getc ∨ i = .inp ∨ i = .trap 0x20 ∨ i = .trap 0x23

/-- The loop of PUTS as 44_trap_system.md R194 writes it, with no bound: from the state `s` and the address `p` it ends in `t`.
Each read goes through the intercepted path (20_memory.md R43). -/
inductive PutsRun : State → Word → State → Prop where
  /-- A zero Word ends the loop, in the state after the read. -/
  | terminator {s : State} {p : Word} : (s.memRead p).1 = 0 → PutsRun s p (s.memRead p).2
  /-- A non-zero Word whose write the console fails: the fault is taken (60_exceptions.md R222). -/
  | failure {s t : State} {p : Word} :
      (s.memRead p).1 ≠ 0 → (s.memRead p).2.hostWrite (lowByte (s.memRead p).1) = .fails t →
        PutsRun s p (t.raise .hostIOFailure)
  /-- A non-zero Word: its low byte is written, and the loop goes on at `p + 1`. -/
  | character {s t u : State} {p : Word} :
      (s.memRead p).1 ≠ 0 → (s.memRead p).2.hostWrite (lowByte (s.memRead p).1) = .written t →
        PutsRun t (p + 1) u → PutsRun s p u

end Sys2Proof.Claims

open Sys2Proof Sys2Proof.Machine Sys2Proof.Safety Sys2Proof.Claims

/-! ### Decoding and encoding -/

/-- The words of spec section 95 (V-D1 to V-D3, V-D5, V-D12, V-D15, V-D20, V-D26, V-D33, V-D40, V-D42, V-D46, V-D53, V-D56,
V-D60, V-D64, V-D68, V-D72, V-D84, V-D87) decode to what they stand for. The model's choices: that 0xF025 is the HALT row and not
Trap 0x25, as V-D3 has it (log 6); that 0xC1C0 is RET (D15, log 6). The spec's own: thirteen opcode values, the sense of bit 11,
the fields of NOT, LDR and STR are general knowledge (log 1, 2, 3); 0x1283 and 0x5E87 rest on the correction C1 (log 4); the
ignored bits of 0x47FF on D16 (log 5). -/
def Obligations.WrittenWordsDecode : Prop :=
  decode 0x1025 = .addImmediateMode 0 0 0x0005 ∧ decode 0x5020 = .andImmediateMode 0 0 0x0000 ∧ decode 0xF025 = .halt ∧
    decode 0x1283 = .addRegMode 1 2 3 ∧ decode 0x5E87 = .andRegMode 7 2 7 ∧ decode 0x903F = .not 0 0 ∧
    decode 0x6C81 = .ldr 6 2 1 ∧ decode 0x7C81 = .str 6 2 1 ∧ decode 0x03FD = .br false false true 0xFFFD ∧
    decode 0xC0C0 = .jmp 3 ∧ decode 0xC1C0 = .ret ∧ decode 0x4803 = .jsr 3 ∧ decode 0x47FF = .jsrr 7 ∧
    decode 0x2E05 = .ld 7 5 ∧ decode 0xA003 = .ldi 0 3 ∧ decode 0xE208 = .lea 1 8 ∧ decode 0x3E05 = .st 7 5 ∧
    decode 0xB1FE = .sti 0 0xFFFE ∧ decode 0xF024 = .trap 0x24 ∧ decode 0x8000 = .rti ∧ decode 0xD000 = .res

/-- Decoding an encoded well-formed instruction gives it back, with every operand at every value the encoding admits. -/
def Obligations.DecodeOfEncode : Prop :=
  ∀ i : Instr, i.wellFormed = true → decode (encode i) = i

/-- Whatever the word, what is decoded is well-formed: each immediate and offset is one that a field of its width delivers (R102).
The model's choices: that a TRAP that stays a TRAP has an unserved vector (log 6; R101 lets a Trap carry any vector), and, by the
spec's D15, that a JMP does not name R7 (log 6). -/
def Obligations.DecodeIsWellFormed : Prop :=
  ∀ w : Word, (decode w).wellFormed = true

/-- Two words decode to the same Operation exactly when they agree on the examined bits (R125, a consequence the spec derives). -/
def Obligations.DecoderSeesExactlyTheFields : Prop :=
  ∀ v w : Word, decodeOperation v = decodeOperation w ↔ v &&& examinedBits v = w &&& examinedBits w

/-- The words of opcodes 0001, 0101 and 1001 (R104 to R107, R117). The register positions of ADD and AND are the correction C1
(log 4); the opcode value of NOT is general knowledge U10 (log 1), its positions U12 (log 3); that bits 4..3 of a register form
and the low six bits of NOT do not matter is D16 (log 5). -/
def Obligations.OperateWordsDecode : Prop :=
  ∀ w : Word,
    (w.extractLsb' 12 4 = 0b0001#4 → w[5] = false →
      decodeOperation w = .addRegMode (w.extractLsb' 9 3) (w.extractLsb' 6 3) (w.extractLsb' 0 3)) ∧
    (w.extractLsb' 12 4 = 0b0001#4 → w[5] = true →
      decodeOperation w = .addImmediateMode (w.extractLsb' 9 3) (w.extractLsb' 6 3) (sext (w.extractLsb' 0 5))) ∧
    (w.extractLsb' 12 4 = 0b0101#4 → w[5] = false →
      decodeOperation w = .andRegMode (w.extractLsb' 9 3) (w.extractLsb' 6 3) (w.extractLsb' 0 3)) ∧
    (w.extractLsb' 12 4 = 0b0101#4 → w[5] = true →
      decodeOperation w = .andImmediateMode (w.extractLsb' 9 3) (w.extractLsb' 6 3) (sext (w.extractLsb' 0 5))) ∧
    (w.extractLsb' 12 4 = 0b1001#4 → decodeOperation w = .not (w.extractLsb' 9 3) (w.extractLsb' 6 3))

/-- The words of BR, JMP, RET, JSR, JSRR, TRAP, RTI, RES (R108 to R112, R121 to R123): a TRAP's vector is carried whatever it is.
Opcode values but TRAP's and the sense of bit 11 are general knowledge (log 1, 2); RET as a tag of its own is D15 (log 6); that
bits 11..9 and 5..0 of JMP and RET, 10..9 and 5..0 of JSRR, 11..8 of TRAP and 11..0 of RTI and RES do not matter is D16 (log 5). -/
def Obligations.ControlAndSystemWordsDecode : Prop :=
  ∀ w : Word,
    (w.extractLsb' 12 4 = 0b0000#4 → decodeOperation w = .br w[11] w[10] w[9] (sext (w.extractLsb' 0 9))) ∧
    (w.extractLsb' 12 4 = 0b1100#4 → w.extractLsb' 6 3 ≠ 7#3 → decodeOperation w = .jmp (w.extractLsb' 6 3)) ∧
    (w.extractLsb' 12 4 = 0b1100#4 → w.extractLsb' 6 3 = 7#3 → decodeOperation w = .ret) ∧
    (w.extractLsb' 12 4 = 0b0100#4 → w[11] = true → decodeOperation w = .jsr (sext (w.extractLsb' 0 11))) ∧
    (w.extractLsb' 12 4 = 0b0100#4 → w[11] = false → decodeOperation w = .jsrr (w.extractLsb' 6 3)) ∧
    (w.extractLsb' 12 4 = 0b1111#4 → decodeOperation w = .trap (w.extractLsb' 0 8)) ∧
    (w.extractLsb' 12 4 = 0b1000#4 → decodeOperation w = .rti) ∧
    (w.extractLsb' 12 4 = 0b1101#4 → decodeOperation w = .res)

/-- The words of the loads and stores (R113 to R116, R118 to R120; opcode values and the positions of LDR and STR are general
knowledge, log 1, 3). -/
def Obligations.LoadStoreWordsDecode : Prop :=
  ∀ w : Word,
    (w.extractLsb' 12 4 = 0b0010#4 → decodeOperation w = .ld (w.extractLsb' 9 3) (sext (w.extractLsb' 0 9))) ∧
    (w.extractLsb' 12 4 = 0b1010#4 → decodeOperation w = .ldi (w.extractLsb' 9 3) (sext (w.extractLsb' 0 9))) ∧
    (w.extractLsb' 12 4 = 0b0110#4 →
      decodeOperation w = .ldr (w.extractLsb' 9 3) (w.extractLsb' 6 3) (sext (w.extractLsb' 0 6))) ∧
    (w.extractLsb' 12 4 = 0b1110#4 → decodeOperation w = .lea (w.extractLsb' 9 3) (sext (w.extractLsb' 0 9))) ∧
    (w.extractLsb' 12 4 = 0b0011#4 → decodeOperation w = .st (w.extractLsb' 9 3) (sext (w.extractLsb' 0 9))) ∧
    (w.extractLsb' 12 4 = 0b1011#4 → decodeOperation w = .sti (w.extractLsb' 9 3) (sext (w.extractLsb' 0 9))) ∧
    (w.extractLsb' 12 4 = 0b0111#4 →
      decodeOperation w = .str (w.extractLsb' 9 3) (w.extractLsb' 6 3) (sext (w.extractLsb' 0 6)))

/-- The table's five service rows refine its TRAP row: whichever way a served TRAP is named, it does the same (R190, R91). -/
def Obligations.ServiceRowsRefineTrap : Prop :=
  ∀ (i : Instr) (s : State), exec (selectService i) s = exec i s

/-- R8: a field whose top bit is 1 gets the fill of its width, any other field stands unchanged; the signed number is kept. -/
def Obligations.SignExtensionRule : Prop :=
  (∀ v : BitVec 5, sext v = (if v[4] then 0xFFE0 ||| v.setWidth 16 else v.setWidth 16) ∧ (sext v).toInt = v.toInt) ∧
    (∀ v : BitVec 6, sext v = (if v[5] then 0xFFC0 ||| v.setWidth 16 else v.setWidth 16) ∧ (sext v).toInt = v.toInt) ∧
    (∀ v : BitVec 9, sext v = (if v[8] then 0xFE00 ||| v.setWidth 16 else v.setWidth 16) ∧ (sext v).toInt = v.toInt) ∧
    (∀ v : BitVec 11, sext v = (if v[10] then 0xF800 ||| v.setWidth 16 else v.setWidth 16) ∧ (sext v).toInt = v.toInt) ∧
    sext (0b11111 : BitVec 5) = 0xFFFF

/-! ### Reset, the registers, the invariant -/

/-- What reset leaves (R36, R250). The zeros of R0..R7, of memory and of the latch are the spec's decisions D4, D5, D11 (log 8,
9, 15), the constant PC is D6 (log 11); the empty console is the model's choice (log 18). -/
def Obligations.ResetState : Prop :=
  State.reset.pc = 0x3000 ∧ State.reset.cond = .z ∧ (∀ r : RegIdx, State.reset.getReg r = 0) ∧
    (∀ a : Word, State.reset.cell a = 0) ∧ State.reset.kbReady = false ∧ State.reset.kbData = 0 ∧
    State.reset.run = .running ∧ State.reset.fault = none ∧ State.reset.outcome = none

/-- The invariant holds after reset. -/
def Obligations.ResetIsSound : Prop := Sound State.reset

/-- Every step keeps the invariant: memory stays in canonical form, and a recorded fault means halted. -/
def Obligations.StepKeepsInvariant : Prop :=
  ∀ s t : State, Sound s → step s = .next t → Sound t

/-- R26: the three cases of the flag function, and that they are the signed reading's. -/
def Obligations.FlagFunctionRule : Prop :=
  ∀ v : Word,
    (flags v = .z ↔ v = 0x0000) ∧ (flags v = .n ↔ v[15] = true) ∧ (flags v = .p ↔ v ≠ 0x0000 ∧ v[15] = false) ∧
      (flags v = .z ↔ v.toInt = 0) ∧ (flags v = .n ↔ v.toInt < 0) ∧ (flags v = .p ↔ 0 < v.toInt)

/-- The write port of a general register and the read port (R24, R25, R30): the register holds the value, COND its flags, and
the other eight slots what they held; the read port answers PC and COND, and the ten names have the slots 0 to 9. COND's Words and
the slot numbers are the spec's decisions D1 and D2 (log 7). -/
def Obligations.RegisterFilePorts : Prop :=
  ∀ (s : State) (r : RegIdx) (v : Word),
    (s.setReg r v).get (.gpr r) = v ∧ (s.setReg r v).cond = flags v ∧
      (∀ name : RegName, name ≠ .gpr r → name ≠ .cond → (s.setReg r v).get name = s.get name) ∧
      s.get .pc = s.pc ∧
      (s.cond = .n → s.get .cond = 0x0004) ∧ (s.cond = .z → s.get .cond = 0x0002) ∧ (s.cond = .p → s.get .cond = 0x0001) ∧
      (RegName.gpr r).slot = r.toNat ∧ RegName.pc.slot = 8 ∧ RegName.cond.slot = 9 ∧
      (∀ name : RegName, name.slot < 10) ∧
      (∀ name name' : RegName, name.slot = name'.slot → name = name') ∧
      (∀ a : Word, (s.setReg r v).cell a = s.cell a)

/-! ### What each instruction does -/

/-- R133, R134: the sum modulo 2^16 in DR, COND from it, nothing else changes. -/
def Obligations.AddResult : Prop :=
  ∀ (s : State) (dr sr1 sr2 : RegIdx) (imm5 : Word),
    exec (.addRegMode dr sr1 sr2) s =
        .next { s with
          regs := s.regs.set dr.toNat (s.getReg sr1 + s.getReg sr2) dr.isLt
          cond := flags (s.getReg sr1 + s.getReg sr2) } ∧
      exec (.addImmediateMode dr sr1 imm5) s =
        .next { s with
          regs := s.regs.set dr.toNat (s.getReg sr1 + imm5) dr.isLt
          cond := flags (s.getReg sr1 + imm5) }

/-- R135, R136: the bitwise AND in DR, COND from it, nothing else changes. -/
def Obligations.AndResult : Prop :=
  ∀ (s : State) (dr sr1 sr2 : RegIdx) (imm5 : Word),
    exec (.andRegMode dr sr1 sr2) s =
        .next { s with
          regs := s.regs.set dr.toNat (s.getReg sr1 &&& s.getReg sr2) dr.isLt
          cond := flags (s.getReg sr1 &&& s.getReg sr2) } ∧
      exec (.andImmediateMode dr sr1 imm5) s =
        .next { s with
          regs := s.regs.set dr.toNat (s.getReg sr1 &&& imm5) dr.isLt
          cond := flags (s.getReg sr1 &&& imm5) }

/-- R137: the complement in DR, COND from it, nothing else changes. -/
def Obligations.NotResult : Prop :=
  ∀ (s : State) (dr sr : RegIdx),
    exec (.not dr sr) s =
      .next { s with
        regs := s.regs.set dr.toNat (~~~(s.getReg sr)) dr.isLt
        cond := flags (~~~(s.getReg sr)) }

/-- R150, R151: the branch is taken exactly when a requested flag is the one set; nothing but PC changes. -/
def Obligations.BranchResult : Prop :=
  ∀ (s : State) (n z p : Bool) (offset : Word),
    exec (.br n z p offset) s =
      .next { s with
        pc :=
          if (n = true ∧ s.cond = .n) ∨ (z = true ∧ s.cond = .z) ∨ (p = true ∧ s.cond = .p) then s.pc + offset
          else s.pc }

/-- R152, R153: PC is the base register's value; RET's is R7; nothing else changes. -/
def Obligations.JumpResult : Prop :=
  ∀ (s : State) (baseR : RegIdx),
    exec (.jmp baseR) s = .next { s with pc := s.getReg baseR } ∧ exec .ret s = .next { s with pc := s.getReg 7 }

/-- JSR (R154): R7 is the incremented PC, and the target counts from it. That COND follows the link is the spec's reading D13
(log 22). -/
def Obligations.JsrResult : Prop :=
  ∀ (s : State) (offset : Word),
    exec (.jsr offset) s =
      .next { s with regs := s.regs.set 7 s.pc, cond := flags s.pc, pc := s.pc + offset }

/-- JSRR (R155): the link first, then the base register is read, so JSRR R7 falls through. COND by D13 (log 22), the order by
D14 (log 23), the spec's readings. -/
def Obligations.JsrrResult : Prop :=
  ∀ (s : State) (baseR : RegIdx),
    exec (.jsrr baseR) s =
      .next { s with
        regs := s.regs.set 7 s.pc
        cond := flags s.pc
        pc := if baseR = 7 then s.pc else s.getReg baseR }

/-- R170, R172: the Word that the read path answers goes to DR, COND from it; beside that only what the read itself does to the
latch and the console happens. -/
def Obligations.LoadResult : Prop :=
  ∀ (s : State) (dr baseR : RegIdx) (offset : Word),
    exec (.ld dr offset) s =
        .next { (s.memRead (s.pc + offset)).2 with
          regs := s.regs.set dr.toNat (s.memRead (s.pc + offset)).1 dr.isLt
          cond := flags (s.memRead (s.pc + offset)).1 } ∧
      exec (.ldr dr baseR offset) s =
        .next { (s.memRead (s.getReg baseR + offset)).2 with
          regs := s.regs.set dr.toNat (s.memRead (s.getReg baseR + offset)).1 dr.isLt
          cond := flags (s.memRead (s.getReg baseR + offset)).1 }

/-- R171: two reads in sequence, the second at the address the first answered. -/
def Obligations.LoadIndirectResult : Prop :=
  ∀ (s u v : State) (dr : RegIdx) (offset p w : Word),
    s.memRead (s.pc + offset) = (p, u) → u.memRead p = (w, v) →
      exec (.ldi dr offset) s = .next { v with regs := s.regs.set dr.toNat w dr.isLt, cond := flags w }

/-- R173: the address itself goes to DR, COND from it; no memory access, so nothing else changes. -/
def Obligations.LeaResult : Prop :=
  ∀ (s : State) (dr : RegIdx) (offset : Word),
    exec (.lea dr offset) s =
      .next { s with regs := s.regs.set dr.toNat (s.pc + offset) dr.isLt, cond := flags (s.pc + offset) }

/-- R174, R176: SR's value is written at the address; no register and no flag changes. -/
def Obligations.StoreResult : Prop :=
  ∀ (s : State) (sr baseR : RegIdx) (offset : Word),
    exec (.st sr offset) s = .next { s with mem := s.mem.write (s.pc + offset).toNat (s.getReg sr) } ∧
      exec (.str sr baseR offset) s = .next { s with mem := s.mem.write (s.getReg baseR + offset).toNat (s.getReg sr) }

/-- R175: the pointer is read once, and SR's value is written where it points. -/
def Obligations.StoreIndirectResult : Prop :=
  ∀ (s u : State) (sr : RegIdx) (offset p : Word),
    s.memRead (s.pc + offset) = (p, u) →
      exec (.sti sr offset) s = .next { u with mem := s.mem.write p.toNat (s.getReg sr) }

/-! ### TRAP and its services, RTI, RES -/

/-- GETC (R192), when a character comes after any number of moments without one, or when the next answer is a free value: R7 is
the link, R0 the character zero-extended, COND its flags, nothing written. COND by D13 (log 22); one input stream, the latch
ignored, by D12 (log 16); the free value is log 17. -/
def Obligations.GetcResult : Prop :=
  ∀ (s : State) (k : Nat) (c : Byte) (rest : List ConsoleAnswer),
    (s.console.input = List.replicate k .idle ++ .char c :: rest →
      exec .getc s =
        .next { s with
          regs := (s.regs.set 7 s.pc).set 0 (zext8 c)
          cond := flags (zext8 c)
          console := { s.console with input := rest } }) ∧
    (s.console.input = List.replicate k .idle →
      exec .getc s =
        .next { s with
          regs := (s.regs.set 7 s.pc).set 0 (zext8 (Config.readByte s.console.draws))
          cond := flags (zext8 (Config.readByte s.console.draws))
          console := { s.console with input := [], draws := s.console.draws + 1 } })

/-- OUT (R193): the low byte of R0 is written, or the fault HostIOFailure is taken when the console fails. R7 and COND by the
link (D13, log 22); what the fault leaves by D17, D18, D20 (log 19, 24, 25). -/
def Obligations.OutResult : Prop :=
  ∀ (s : State) (n : Nat),
    (s.console.writesUntilFailure = none →
      exec .out s =
        .next { s with
          regs := s.regs.set 7 s.pc
          cond := flags s.pc
          console := { s.console with output := s.console.output ++ [(s.getReg 0).extractLsb' 0 8] } }) ∧
    (s.console.writesUntilFailure = some (n + 1) →
      exec .out s =
        .next { s with
          regs := s.regs.set 7 s.pc
          cond := flags s.pc
          console :=
            { s.console with
              output := s.console.output ++ [(s.getReg 0).extractLsb' 0 8], writesUntilFailure := some n } }) ∧
    (s.console.writesUntilFailure = some 0 →
      exec .out s =
        .next { s with
          regs := s.regs.set 7 s.pc
          cond := flags s.pc
          run := .halted
          fault := some { pc := s.fetchAddr, reason := .hostIOFailure } })

/-- PUTS over an ordinary string (R194): one byte for each Word up to the first zero Word, the low byte of each, in order; R0
stays. When the console fails after fewer writes, HostIOFailure is taken with the address of the TRAP, and the first characters
stay written (R222). R7 and COND by the link (D13, log 22); what the fault leaves by D17, D18, D20 (log 24, 25, 19). -/
def Obligations.PutsWritesTheString : Prop :=
  ∀ (s : State) (n : Nat),
    n < 65536 →
    (∀ k, k ≤ n → isDevice (s.getReg 0 + BitVec.ofNat 16 k) = false) →
    (∀ k, k < n → s.cell (s.getReg 0 + BitVec.ofNat 16 k) ≠ 0) →
    s.cell (s.getReg 0 + BitVec.ofNat 16 n) = 0 →
      ((∀ m, s.console.writesUntilFailure = some m → n ≤ m) →
        exec .puts s =
          .next { s with
            regs := s.regs.set 7 s.pc
            cond := flags s.pc
            console :=
              { s.console with
                output :=
                  s.console.output ++
                    (List.range n).map fun k => (s.cell (s.getReg 0 + BitVec.ofNat 16 k)).extractLsb' 0 8
                writesUntilFailure := s.console.writesUntilFailure.map (· - n) } }) ∧
      (∀ m, s.console.writesUntilFailure = some m → m < n →
        exec .puts s =
          .next { s with
            regs := s.regs.set 7 s.pc
            cond := flags s.pc
            run := .halted
            fault := some { pc := s.fetchAddr, reason := .hostIOFailure }
            console :=
              { s.console with
                output :=
                  s.console.output ++
                    (List.range m).map fun k => (s.cell (s.getReg 0 + BitVec.ofNat 16 k)).extractLsb' 0 8
                writesUntilFailure := some 0 } })

/-- PUTS is the loop of R194, wherever the string runs, over the device addresses too: the state it answers is one the loop ends
in; and where the loop ends in a state, PUTS answers it, but for the model's own stop putsUnending, which needs that no write is
to fail and no ordinary cell is zero (log 21). COND by D13 (log 22), the polls by D7 and D8 (log 12, 13). -/
def Obligations.PutsIsTheLoop : Prop :=
  ∀ s t : State,
    (exec .puts s = .next t → PutsRun s.link (s.getReg 0) t) ∧
      (PutsRun s.link (s.getReg 0) t →
        exec .puts s = .next t ∨
          (exec .puts s = .fault .putsUnending ∧ s.console.writesUntilFailure = none ∧
            ∀ a : Word, isDevice a = false → s.cell a ≠ 0))

/-- PUTS completes whenever some ordinary cell holds 0x0000, wherever it starts and whatever the console does, and whenever the
console is to fail after some number of writes (R194, R222, D24). -/
def Obligations.PutsCompletes : Prop :=
  ∀ (s : State) (a : Word) (n : Nat),
    (isDevice a = false ∧ s.cell a = 0) ∨ s.console.writesUntilFailure = some n → ∃ t, exec .puts s = .next t

/-- IN (R195): the prompt, the character, its echo, then R0 and COND; or HostIOFailure at the first write that fails, the bytes
before it kept. COND by D13 (log 22), the stream by D12 (log 16), the prompt is the open parameter (log 26). -/
def Obligations.InResult : Prop :=
  ∀ (s : State) (k n : Nat) (c : Byte) (rest : List ConsoleAnswer),
    s.console.input = List.replicate k .idle ++ .char c :: rest →
    (s.console.writesUntilFailure = none →
      exec .inp s =
        .next { s with
          regs := (s.regs.set 7 s.pc).set 0 (zext8 c)
          cond := flags (zext8 c)
          console := { s.console with input := rest, output := s.console.output ++ Config.inPrompt ++ [c] } }) ∧
    (s.console.writesUntilFailure = some n →
      exec .inp s =
        if Config.inPrompt.length < n then
          .next { s with
            regs := (s.regs.set 7 s.pc).set 0 (zext8 c)
            cond := flags (zext8 c)
            console :=
              { s.console with
                input := rest
                output := s.console.output ++ Config.inPrompt ++ [c]
                writesUntilFailure := some (n - Config.inPrompt.length - 1) } }
        else
          .next { s with
            regs := s.regs.set 7 s.pc
            cond := flags s.pc
            run := .halted
            fault := some { pc := s.fetchAddr, reason := .hostIOFailure }
            console :=
              { s.console with
                input := if n = Config.inPrompt.length then rest else s.console.input
                output := s.console.output ++ Config.inPrompt.take n
                writesUntilFailure := some 0 } })

/-- IN with no listed answer left: the character is a free value (log 17); or HostIOFailure at the first write that fails (D17,
D18, D20: log 24, 25, 19). COND by D13 (log 22), the prompt is the open parameter (log 26). -/
def Obligations.InFreeResult : Prop :=
  ∀ (s : State) (k n : Nat),
    s.console.input = List.replicate k .idle →
    (s.console.writesUntilFailure = none →
      exec .inp s =
        .next { s with
          regs := (s.regs.set 7 s.pc).set 0 (zext8 (Config.readByte s.console.draws))
          cond := flags (zext8 (Config.readByte s.console.draws))
          console :=
            { s.console with
              input := []
              draws := s.console.draws + 1
              output := s.console.output ++ Config.inPrompt ++ [Config.readByte s.console.draws] } }) ∧
    (s.console.writesUntilFailure = some n →
      exec .inp s =
        if Config.inPrompt.length < n then
          .next { s with
            regs := (s.regs.set 7 s.pc).set 0 (zext8 (Config.readByte s.console.draws))
            cond := flags (zext8 (Config.readByte s.console.draws))
            console :=
              { input := []
                draws := s.console.draws + 1
                output := s.console.output ++ Config.inPrompt ++ [Config.readByte s.console.draws]
                writesUntilFailure := some (n - Config.inPrompt.length - 1) } }
        else
          .next { s with
            regs := s.regs.set 7 s.pc
            cond := flags s.pc
            run := .halted
            fault := some { pc := s.fetchAddr, reason := .hostIOFailure }
            console :=
              { input := if n = Config.inPrompt.length then [] else s.console.input
                draws := if n = Config.inPrompt.length then s.console.draws + 1 else s.console.draws
                output := s.console.output ++ Config.inPrompt.take n
                writesUntilFailure := some 0 } })

/-- HALT (R196): the message, then halted; or HostIOFailure at the first write that fails. R7 and COND by the link (D13, log
22), the message is the open parameter (log 26). -/
def Obligations.HaltResult : Prop :=
  ∀ (s : State) (n : Nat),
    (s.console.writesUntilFailure = none →
      exec .halt s =
        .next { s with
          regs := s.regs.set 7 s.pc
          cond := flags s.pc
          run := .halted
          console := { s.console with output := s.console.output ++ Config.haltMessage } }) ∧
    (s.console.writesUntilFailure = some n →
      exec .halt s =
        if Config.haltMessage.length ≤ n then
          .next { s with
            regs := s.regs.set 7 s.pc
            cond := flags s.pc
            run := .halted
            console :=
              { s.console with
                output := s.console.output ++ Config.haltMessage
                writesUntilFailure := some (n - Config.haltMessage.length) } }
        else
          .next { s with
            regs := s.regs.set 7 s.pc
            cond := flags s.pc
            run := .halted
            fault := some { pc := s.fetchAddr, reason := .hostIOFailure }
            console :=
              { s.console with
                output := s.console.output ++ Config.haltMessage.take n, writesUntilFailure := some 0 } })

/-- A blocking read that the console fails, after any number of moments without a character: HostIOFailure is taken, R7 and COND
have changed by the link, R0 has not. IN has written its prompt before, or as much of it as the console took: then a write is
what failed and no answer is used up (R222; D13, D17, D18, D20: log 22, 24, 25, 19; the prompt: log 26). -/
def Obligations.FailedReadTakesFault : Prop :=
  ∀ (s : State) (k n : Nat) (rest : List ConsoleAnswer),
    s.console.input = List.replicate k .idle ++ .unavailable :: rest →
      exec .getc s =
          .next { s with
            regs := s.regs.set 7 s.pc
            cond := flags s.pc
            run := .halted
            fault := some { pc := s.fetchAddr, reason := .hostIOFailure }
            console := { s.console with input := rest } } ∧
        (s.console.writesUntilFailure = none →
          exec .inp s =
            .next { s with
              regs := s.regs.set 7 s.pc
              cond := flags s.pc
              run := .halted
              fault := some { pc := s.fetchAddr, reason := .hostIOFailure }
              console := { s.console with input := rest, output := s.console.output ++ Config.inPrompt } }) ∧
        (s.console.writesUntilFailure = some n →
          exec .inp s =
            .next { s with
              regs := s.regs.set 7 s.pc
              cond := flags s.pc
              run := .halted
              fault := some { pc := s.fetchAddr, reason := .hostIOFailure }
              console :=
                { s.console with
                  input := if Config.inPrompt.length ≤ n then rest else s.console.input
                  output := s.console.output ++ Config.inPrompt.take n
                  writesUntilFailure := some (n - Config.inPrompt.length) } })

/-- A blocking read that no character ever answers: the step never completes (R62), the model's stop hostReadBlocked (log 20).
When the console takes only a part of IN's prompt, the read is not reached and HostIOFailure is taken (R195, R222; D13, D17, D18,
D20: log 22, 24, 25, 19). -/
def Obligations.UnansweredReadBlocks : Prop :=
  ∀ (s : State) (k n : Nat) (rest : List ConsoleAnswer),
    s.console.input = List.replicate k .idle ++ .silent :: rest →
      exec .getc s = .fault .hostReadBlocked ∧
        (s.console.writesUntilFailure = none → exec .inp s = .fault .hostReadBlocked) ∧
        (s.console.writesUntilFailure = some n →
          exec .inp s =
            if Config.inPrompt.length ≤ n then .fault .hostReadBlocked
            else
              .next { s with
                regs := s.regs.set 7 s.pc
                cond := flags s.pc
                run := .halted
                fault := some { pc := s.fetchAddr, reason := .hostIOFailure }
                console :=
                  { s.console with
                    output := s.console.output ++ Config.inPrompt.take n, writesUntilFailure := some 0 } })

/-- TRAP (R190, R197): with an unserved vector the IllegalInstruction fault is taken after the link write, with the address and
the raw word of the instruction; with a served vector it is the service. D13, D17, D18 are the spec's readings (log 22, 24, 25). -/
def Obligations.TrapResult : Prop :=
  ∀ (s : State) (vector : Byte),
    (vector ≠ 0x20 → vector ≠ 0x21 → vector ≠ 0x22 → vector ≠ 0x23 → vector ≠ 0x25 →
      exec (.trap vector) s =
        .next { s with
          regs := s.regs.set 7 s.pc
          cond := flags s.pc
          run := .halted
          fault := some { pc := s.fetchAddr, reason := .illegalInstruction s.fetchWord } }) ∧
    exec (.trap 0x20) s = exec .getc s ∧ exec (.trap 0x21) s = exec .out s ∧ exec (.trap 0x22) s = exec .puts s ∧
    exec (.trap 0x23) s = exec .inp s ∧ exec (.trap 0x25) s = exec .halt s

/-- RTI and RES (R198, R199, R225): IllegalInstruction is taken with the address and the raw word of the instruction; nothing
else changes. The recorded address is the spec's reading D17 (log 24). -/
def Obligations.ReservedOpcodesTakeFault : Prop :=
  ∀ s : State,
    exec .rti s =
        .next { s with
          run := .halted, fault := some { pc := s.fetchAddr, reason := .illegalInstruction s.fetchWord } } ∧
      exec .res s =
        .next { s with
          run := .halted, fault := some { pc := s.fetchAddr, reason := .illegalInstruction s.fetchWord } }

/-- Writing the bytes of a text is one HostWrite after another, up to the first that fails (R195, R196). -/
def Obligations.WritingBytesIsTheLoop : Prop :=
  ∀ (s : State) (b : Byte) (bytes : List Byte),
    s.hostWriteAll [] = .written s ∧
      (∀ t : State, s.hostWrite b = .written t → s.hostWriteAll (b :: bytes) = t.hostWriteAll bytes) ∧
      (∀ t : State, s.hostWrite b = .fails t → s.hostWriteAll (b :: bytes) = .fails t)

/-! ### Memory and the keyboard -/

/-- R42: the address alone chooses the case; a plain read answers the content of the cell, which is the Word last written
there, and changes nothing. -/
def Obligations.ReadPath : Prop :=
  ∀ s : State,
    s.memRead 0xFE00 = s.kbsrRead ∧ s.memRead 0xFE02 = s.kbdrRead ∧
      ∀ a : Word, a ≠ 0xFE00 → a ≠ 0xFE02 →
        s.memRead a = (s.cell a, s) ∧
          (s.mem.wf = true → ∀ v : Word, (s.memWrite a v).memRead a = (v, s.memWrite a v))

/-- R44: a write stores the Word in its cell, for every address, and does nothing else. -/
def Obligations.WritePath : Prop :=
  ∀ (s : State) (a v : Word),
    { s.memWrite a v with mem := s.mem } = s ∧ (∀ b : Word, b ≠ a → (s.memWrite a v).cell b = s.cell b) ∧
      (s.mem.wf = true → (s.memWrite a v).cell a = v ∧ (s.memWrite a v).mem.wf = true)

/-- KBSR (R45): a latched character is kept and the host not asked (D7), otherwise the host is polled; bits 14..0 are zero (D10).
Decisions of the spec (log 12); an unavailable console is no character (D20, log 19); beyond the listed answers the answer is
free (log 17). -/
def Obligations.KeyboardStatusRead : Prop :=
  ∀ (s : State) (c : Byte) (rest : List ConsoleAnswer),
    (s.kbReady = true → s.memRead 0xFE00 = (0x8000, s)) ∧
    (s.kbReady = false → s.console.input = .char c :: rest →
      s.memRead 0xFE00 =
        (0x8000, { s with kbReady := true, kbData := c, console := { s.console with input := rest } })) ∧
    (s.kbReady = false → s.console.input = .idle :: rest ∨ s.console.input = .unavailable :: rest →
      s.memRead 0xFE00 = (0x0000, { s with console := { s.console with input := rest } })) ∧
    (s.kbReady = false → s.console.input = .silent :: rest → s.memRead 0xFE00 = (0x0000, s)) ∧
    ((s.memRead 0xFE00).1 = 0x8000 ∧ (s.memRead 0xFE00).2.kbReady = true ∨
      (s.memRead 0xFE00).1 = 0x0000 ∧ (s.memRead 0xFE00).2.kbReady = false)

/-- KBDR (R46): the latched character zero-extended, and the ready state cleared; the character itself stays, so a further read
answers it again (D8, the spec's decision, log 13). The host is not asked. -/
def Obligations.KeyboardDataRead : Prop :=
  ∀ s : State,
    s.memRead 0xFE02 = (zext8 s.kbData, { s with kbReady := false }) ∧ (s.memRead 0xFE02).1.toNat < 256 ∧
      ((s.memRead 0xFE02).2.memRead 0xFE02).1 = (s.memRead 0xFE02).1

/-- A write at a device address is never seen by any read, and leaves the latch alone (R48; D9, the spec's decision, log 14). -/
def Obligations.DeviceWritesAreUnseen : Prop :=
  ∀ (s : State) (a b v : Word),
    isDevice a = true →
      ((s.memWrite a v).memRead b).1 = (s.memRead b).1 ∧ (s.memWrite a v).kbReady = s.kbReady ∧
        (s.memWrite a v).kbData = s.kbData ∧ (s.memWrite a v).console = s.console

/-- A store to the next address is what the next step fetches (R59, a consequence the spec derives): ST with offset 0, STR whose
base plus offset is the incremented PC, STI whose pointer, read after the fetch, is the incremented PC. -/
def Obligations.StoreIsFetchedNext : Prop :=
  ∀ (s : State) (sr baseR : RegIdx) (offset : Word),
    s.run = .running → s.mem.wf = true → isDevice s.pc = false → isDevice (s.pc + 1) = false →
    (decode (s.cell s.pc) = .st sr 0 ∨
      (decode (s.cell s.pc) = .str sr baseR offset ∧ s.getReg baseR + offset = s.pc + 1) ∨
      (decode (s.cell s.pc) = .sti sr offset ∧ (s.fetch.2.memRead (s.pc + 1 + offset)).1 = s.pc + 1)) →
      ∃ t, step s = .next t ∧ t.run = .running ∧ t.pc = s.pc + 1 ∧ t.fetch.1 = s.getReg sr

/-! ### Frames: what an instruction leaves unchanged -/

/-- Every general register but those of 10_state.md R32's columns is unchanged, and COND is unchanged by an instruction that
writes no general register. -/
def Obligations.RegisterFrame : Prop :=
  ∀ (i : Instr) (s t : State),
    exec i s = .next t →
      (∀ r : RegIdx, ¬ mayWrite i r → t.getReg r = s.getReg r) ∧ ((∀ r : RegIdx, ¬ mayWrite i r) → t.cond = s.cond)

/-- COND changes only by a general-register write, and then holds the flags of a register the instruction may write (R25). Of the
two registers that GETC and IN write it follows the one written last: R0 when the service completes, R7 when the console fails.
That the link and service writes count is D13 (log 22), that R0 is not written after a failure D20 (log 19). -/
def Obligations.CondFollowsGeneralWrites : Prop :=
  ∀ (i : Instr) (s t : State),
    exec i s = .next t →
      ((t.regs = s.regs ∧ t.cond = s.cond) ∨ ∃ r : RegIdx, mayWrite i r ∧ t.cond = flags (t.getReg r)) ∧
      (writesR0 i → s.run = .running →
        (t.run = .running → t.cond = flags (t.getReg 0)) ∧
          (t.run = .halted → t.cond = flags (t.getReg 7) ∧ t.getReg 0 = s.getReg 0))

/-- Every cell of memory, the hidden ones included, is unchanged by a form that stores nothing, and outside the stored address
by ST, STR and STI, each at the address its meaning computes (R55). -/
def Obligations.MemoryFrame : Prop :=
  ∀ (i : Instr) (s t : State) (sr baseR : RegIdx) (offset a : Word),
    exec i s = .next t →
      (¬ storesMemory i → t.cell a = s.cell a) ∧
      (i = .st sr offset → a ≠ s.pcRelative offset → t.cell a = s.cell a) ∧
      (i = .str sr baseR offset → a ≠ s.baseOffset baseR offset → t.cell a = s.cell a) ∧
      (i = .sti sr offset → a ≠ (s.indirect offset).1 → t.cell a = s.cell a)

/-- The latch and the console are unchanged by an instruction that neither reads memory after its fetch nor is a TRAP; only a
TRAP writes to the console; only a reader of memory touches the latch; and no instruction changes what the sequencer keeps for
the step (R55, R61). That GETC and IN leave the latch alone is the spec's decision D12 (log 16); the kept address and word are
fields of the model's own (log 29). -/
def Obligations.ConsoleFrame : Prop :=
  ∀ (i : Instr) (s t : State),
    exec i s = .next t →
      (¬ readsMemory i → ¬ isTrap i → t.console = s.console) ∧
      (¬ isTrap i → t.console.output = s.console.output) ∧
      (¬ readsMemory i → t.kbReady = s.kbReady ∧ t.kbData = s.kbData) ∧
      t.fetchAddr = s.fetchAddr ∧ t.fetchWord = s.fetchWord

/-- The run state and the fault record are unchanged but by RTI, RES and TRAP (R35, R225). -/
def Obligations.RunStateFrame : Prop :=
  ∀ (i : Instr) (s t : State),
    exec i s = .next t → ¬ isTrap i → i ≠ .rti → i ≠ .res → t.run = s.run ∧ t.fault = s.fault

/-! ### The step and the whole machine -/

/-- R130: a running machine's step reads the word at PC through the read path, keeps its address and the word, increments PC,
and executes what the word decodes to. That this is a well-formed instruction is the model's (DecodeIsWellFormed; log 6); that a
fetch at a device address is intercepted is D28 (log 28); the kept address and word are fields of the model's own (log 29). -/
def Obligations.StepRunsDecodedInstruction : Prop :=
  ∀ (s u : State) (instr : Word) (i : Instr),
    s.run = .running → s.memRead s.pc = (instr, u) → decode instr = i →
      i.wellFormed = true ∧ step s = exec i { u with pc := s.pc + 1, fetchAddr := s.pc, fetchWord := instr }

/-- No step is refused, and only GETC and IN on an unanswered read and PUTS without end stop without a next state (R62, R194). -/
def Obligations.OnlyConsoleWaitsStop : Prop :=
  ∀ s : State,
    (∀ r : Refusal, step s ≠ .refused r) ∧
      ∀ f : Fault, step s = .fault f →
        s.run = .running ∧
          ((f = .hostReadBlocked ∧ (decode s.fetch.1 = .getc ∨ decode s.fetch.1 = .inp)) ∨
            (f = .putsUnending ∧ decode s.fetch.1 = .puts))

/-- R28: a step's fetch advances PC by exactly 1, modulo 2^16; BR when taken, JMP, RET, JSR and JSRR then overwrite it, offsets
counting from the incremented PC; no other instruction changes it further. (JSRR through R7 is JsrrResult's.) -/
def Obligations.ProgramCounterRule : Prop :=
  ∀ s t : State,
    s.run = .running → step s = .next t →
      s.fetch.2.pc = s.pc + 1 ∧
      (¬ setsPc (decode s.fetch.1) → t.pc = s.pc + 1) ∧
      (∀ n z p offset, decode s.fetch.1 = .br n z p offset →
        t.pc = if branchTaken n z p s.cond then s.pc + 1 + offset else s.pc + 1) ∧
      (∀ r, decode s.fetch.1 = .jmp r → t.pc = s.getReg r) ∧
      (decode s.fetch.1 = .ret → t.pc = s.getReg 7) ∧
      (∀ offset, decode s.fetch.1 = .jsr offset → t.pc = s.pc + 1 + offset) ∧
      (∀ r, r ≠ 7 → decode s.fetch.1 = .jsrr r → t.pc = s.getReg r)

/-- After halted no step changes anything, whatever number of steps is asked for (R229; log 30). -/
def Obligations.HaltedStaysHalted : Prop :=
  ∀ (k : Nat) (s : State), s.run = .halted → Host.Core.run Sys2Proof.core k s = .next s

/-- A run ends only by HALT or a fatal fault, and the report names the instruction (R35, R221, R222): without a fault it is
HALT; an IllegalInstruction is RTI, RES or a TRAP with an unserved vector, reported with the word fetched; a HostIOFailure is a
TRAP that uses the console. The address reported is the instruction's (D17, the spec's reading, log 24). -/
def Obligations.RunEndsOnlyByHaltOrFault : Prop :=
  ∀ s t : State,
    Sound s → s.run = .running → step s = .next t → t.run = .halted →
      (t.outcome = some .halted ∧ decode s.fetch.1 = .halt) ∨
      (t.outcome = some (.fault { pc := s.pc, reason := .illegalInstruction s.fetch.1 }) ∧ isIllegal (decode s.fetch.1)) ∨
      (t.outcome = some (.fault { pc := s.pc, reason := .hostIOFailure }) ∧
        (decode s.fetch.1 = .getc ∨ decode s.fetch.1 = .out ∨ decode s.fetch.1 = .puts ∨ decode s.fetch.1 = .inp ∨
          decode s.fetch.1 = .halt))

/-- Illegal instructions always end the run (R221): the step of an RTI, a RES or a TRAP with an unserved vector takes the fault. -/
def Obligations.IllegalInstructionEndsRun : Prop :=
  ∀ s : State,
    s.run = .running → isIllegal (decode s.fetch.1) →
      ∃ t, step s = .next t ∧ t.outcome = some (.fault { pc := s.pc, reason := .illegalInstruction s.fetch.1 }) ∧
        t.pc = s.pc + 1

/-- The console's two streams only go forward (R62): no step takes back a byte written, and no step puts back or reorders an
answer of the host. -/
def Obligations.StreamsOnlyGoForward : Prop :=
  ∀ s t : State,
    step s = .next t → s.console.output <+: t.console.output ∧ t.console.input <:+ s.console.input

/-- Placing a word where the next fetch reads it: the next step executes exactly that word, and a running state with PC at an
ordinary address changes in that cell only (log 31). -/
def Obligations.PlacedWordRunsNext : Prop :=
  ∀ (s : State) (w : Word),
    s.mem.wf = true →
      step (s.withFetchWord 16 w.toNat) = exec (decode w) (s.withFetchWord 16 w.toNat).fetch.2 ∧
        (s.withFetchWord 16 w.toNat).fetch.1 = w ∧
        (s.run = .running → isDevice s.pc = false → s.withFetchWord 16 w.toNat = s.memWrite s.pc w)

/-! ### The image loader -/

/-- R253: which images are well-formed, and the words of one: big-endian, the first is the origin. -/
def Obligations.ImageFormat : Prop :=
  ∀ (s : State) (bytes : List Byte),
    ((∃ t, s.loadImage bytes = .ok t) ↔ bytes.length % 2 = 0 ∧ 4 ≤ bytes.length) ∧
      (s.loadImage bytes = .error .malformedImage ↔ ¬ (bytes.length % 2 = 0 ∧ 4 ≤ bytes.length)) ∧
      ∀ ws : List Word, imageWords bytes = some ws →
        ws.length * 2 = bytes.length ∧
          ∀ (k : Nat) (w : Word) (hi lo : Byte),
            ws[k]? = some w → bytes[2 * k]? = some hi → bytes[2 * k + 1]? = some lo →
              w.toNat = hi.toNat * 256 + lo.toNat

/-- R254: the words land one after another from the origin up, modulo 2^16 (D21, the spec's decision, log 27); no other cell and
no other part of the state changes (D6, log 11). -/
def Obligations.LoadPlacesWords : Prop :=
  ∀ (s : State) (bytes : List Byte) (origin : Word) (ws : List Word),
    s.mem.wf = true → imageWords bytes = some (origin :: ws) → ws ≠ [] → ws.length ≤ 65536 →
      ∃ t, s.loadImage bytes = .ok t ∧ { t with mem := s.mem } = s ∧ t.mem.wf = true ∧
        (∀ (k : Nat) (w : Word), ws[k]? = some w → t.cell (origin + BitVec.ofNat 16 k) = w) ∧
        ∀ a : Word, (∀ k, k < ws.length → a ≠ origin + BitVec.ofNat 16 k) → t.cell a = s.cell a
end

