-- ==== Sys2Proof/Laws/State.lean ====
section
/-! SUPPORT. One lemma for each field of State and each named update, true by rfl, and the register and cell views. -/

namespace Sys2Proof.Machine

/-! ### setReg -/

@[simp] theorem State.setReg_regs (s : State) (r : RegIdx) (v : Word) : (s.setReg r v).regs = s.regs.set r.toNat v r.isLt := rfl
@[simp] theorem State.setReg_pc (s : State) (r : RegIdx) (v : Word) : (s.setReg r v).pc = s.pc := rfl
@[simp] theorem State.setReg_cond (s : State) (r : RegIdx) (v : Word) : (s.setReg r v).cond = flags v := rfl
@[simp] theorem State.setReg_mem (s : State) (r : RegIdx) (v : Word) : (s.setReg r v).mem = s.mem := rfl
@[simp] theorem State.setReg_kbReady (s : State) (r : RegIdx) (v : Word) : (s.setReg r v).kbReady = s.kbReady := rfl
@[simp] theorem State.setReg_kbData (s : State) (r : RegIdx) (v : Word) : (s.setReg r v).kbData = s.kbData := rfl
@[simp] theorem State.setReg_run (s : State) (r : RegIdx) (v : Word) : (s.setReg r v).run = s.run := rfl
@[simp] theorem State.setReg_fault (s : State) (r : RegIdx) (v : Word) : (s.setReg r v).fault = s.fault := rfl
@[simp] theorem State.setReg_fetchAddr (s : State) (r : RegIdx) (v : Word) : (s.setReg r v).fetchAddr = s.fetchAddr := rfl
@[simp] theorem State.setReg_fetchWord (s : State) (r : RegIdx) (v : Word) : (s.setReg r v).fetchWord = s.fetchWord := rfl
@[simp] theorem State.setReg_console (s : State) (r : RegIdx) (v : Word) : (s.setReg r v).console = s.console := rfl

/-! ### setPc -/

@[simp] theorem State.setPc_regs (s : State) (v : Word) : (s.setPc v).regs = s.regs := rfl
@[simp] theorem State.setPc_pc (s : State) (v : Word) : (s.setPc v).pc = v := rfl
@[simp] theorem State.setPc_cond (s : State) (v : Word) : (s.setPc v).cond = s.cond := rfl
@[simp] theorem State.setPc_mem (s : State) (v : Word) : (s.setPc v).mem = s.mem := rfl
@[simp] theorem State.setPc_kbReady (s : State) (v : Word) : (s.setPc v).kbReady = s.kbReady := rfl
@[simp] theorem State.setPc_kbData (s : State) (v : Word) : (s.setPc v).kbData = s.kbData := rfl
@[simp] theorem State.setPc_run (s : State) (v : Word) : (s.setPc v).run = s.run := rfl
@[simp] theorem State.setPc_fault (s : State) (v : Word) : (s.setPc v).fault = s.fault := rfl
@[simp] theorem State.setPc_fetchAddr (s : State) (v : Word) : (s.setPc v).fetchAddr = s.fetchAddr := rfl
@[simp] theorem State.setPc_fetchWord (s : State) (v : Word) : (s.setPc v).fetchWord = s.fetchWord := rfl
@[simp] theorem State.setPc_console (s : State) (v : Word) : (s.setPc v).console = s.console := rfl

/-! ### link -/

@[simp] theorem State.link_regs (s : State) : (s.link).regs = (s.setReg 7 s.pc).regs := rfl
@[simp] theorem State.link_pc (s : State) : (s.link).pc = s.pc := rfl
@[simp] theorem State.link_cond (s : State) : (s.link).cond = flags s.pc := rfl
@[simp] theorem State.link_mem (s : State) : (s.link).mem = s.mem := rfl
@[simp] theorem State.link_kbReady (s : State) : (s.link).kbReady = s.kbReady := rfl
@[simp] theorem State.link_kbData (s : State) : (s.link).kbData = s.kbData := rfl
@[simp] theorem State.link_run (s : State) : (s.link).run = s.run := rfl
@[simp] theorem State.link_fault (s : State) : (s.link).fault = s.fault := rfl
@[simp] theorem State.link_fetchAddr (s : State) : (s.link).fetchAddr = s.fetchAddr := rfl
@[simp] theorem State.link_fetchWord (s : State) : (s.link).fetchWord = s.fetchWord := rfl
@[simp] theorem State.link_console (s : State) : (s.link).console = s.console := rfl

/-! ### memWrite -/

@[simp] theorem State.memWrite_regs (s : State) (a v : Word) : (s.memWrite a v).regs = s.regs := rfl
@[simp] theorem State.memWrite_pc (s : State) (a v : Word) : (s.memWrite a v).pc = s.pc := rfl
@[simp] theorem State.memWrite_cond (s : State) (a v : Word) : (s.memWrite a v).cond = s.cond := rfl
@[simp] theorem State.memWrite_mem (s : State) (a v : Word) : (s.memWrite a v).mem = s.mem.write a.toNat v := rfl
@[simp] theorem State.memWrite_kbReady (s : State) (a v : Word) : (s.memWrite a v).kbReady = s.kbReady := rfl
@[simp] theorem State.memWrite_kbData (s : State) (a v : Word) : (s.memWrite a v).kbData = s.kbData := rfl
@[simp] theorem State.memWrite_run (s : State) (a v : Word) : (s.memWrite a v).run = s.run := rfl
@[simp] theorem State.memWrite_fault (s : State) (a v : Word) : (s.memWrite a v).fault = s.fault := rfl
@[simp] theorem State.memWrite_fetchAddr (s : State) (a v : Word) : (s.memWrite a v).fetchAddr = s.fetchAddr := rfl
@[simp] theorem State.memWrite_fetchWord (s : State) (a v : Word) : (s.memWrite a v).fetchWord = s.fetchWord := rfl
@[simp] theorem State.memWrite_console (s : State) (a v : Word) : (s.memWrite a v).console = s.console := rfl

/-! ### raise -/

@[simp] theorem State.raise_regs (s : State) (reason : FaultReason) : (s.raise reason).regs = s.regs := rfl
@[simp] theorem State.raise_pc (s : State) (reason : FaultReason) : (s.raise reason).pc = s.pc := rfl
@[simp] theorem State.raise_cond (s : State) (reason : FaultReason) : (s.raise reason).cond = s.cond := rfl
@[simp] theorem State.raise_mem (s : State) (reason : FaultReason) : (s.raise reason).mem = s.mem := rfl
@[simp] theorem State.raise_kbReady (s : State) (reason : FaultReason) : (s.raise reason).kbReady = s.kbReady := rfl
@[simp] theorem State.raise_kbData (s : State) (reason : FaultReason) : (s.raise reason).kbData = s.kbData := rfl
@[simp] theorem State.raise_run (s : State) (reason : FaultReason) : (s.raise reason).run = .halted := rfl
@[simp] theorem State.raise_fault (s : State) (reason : FaultReason) : (s.raise reason).fault = some { pc := s.fetchAddr, reason := reason } := rfl
@[simp] theorem State.raise_fetchAddr (s : State) (reason : FaultReason) : (s.raise reason).fetchAddr = s.fetchAddr := rfl
@[simp] theorem State.raise_fetchWord (s : State) (reason : FaultReason) : (s.raise reason).fetchWord = s.fetchWord := rfl
@[simp] theorem State.raise_console (s : State) (reason : FaultReason) : (s.raise reason).console = s.console := rfl

/-! ### raiseIllegal -/

@[simp] theorem State.raiseIllegal_regs (s : State) : (s.raiseIllegal).regs = s.regs := rfl
@[simp] theorem State.raiseIllegal_pc (s : State) : (s.raiseIllegal).pc = s.pc := rfl
@[simp] theorem State.raiseIllegal_cond (s : State) : (s.raiseIllegal).cond = s.cond := rfl
@[simp] theorem State.raiseIllegal_mem (s : State) : (s.raiseIllegal).mem = s.mem := rfl
@[simp] theorem State.raiseIllegal_kbReady (s : State) : (s.raiseIllegal).kbReady = s.kbReady := rfl
@[simp] theorem State.raiseIllegal_kbData (s : State) : (s.raiseIllegal).kbData = s.kbData := rfl
@[simp] theorem State.raiseIllegal_run (s : State) : (s.raiseIllegal).run = .halted := rfl
@[simp] theorem State.raiseIllegal_fault (s : State) : (s.raiseIllegal).fault = some { pc := s.fetchAddr, reason := .illegalInstruction s.fetchWord } := rfl
@[simp] theorem State.raiseIllegal_fetchAddr (s : State) : (s.raiseIllegal).fetchAddr = s.fetchAddr := rfl
@[simp] theorem State.raiseIllegal_fetchWord (s : State) : (s.raiseIllegal).fetchWord = s.fetchWord := rfl
@[simp] theorem State.raiseIllegal_console (s : State) : (s.raiseIllegal).console = s.console := rfl

/-! ### halt -/

@[simp] theorem State.halt_regs (s : State) : (s.halt).regs = s.regs := rfl
@[simp] theorem State.halt_pc (s : State) : (s.halt).pc = s.pc := rfl
@[simp] theorem State.halt_cond (s : State) : (s.halt).cond = s.cond := rfl
@[simp] theorem State.halt_mem (s : State) : (s.halt).mem = s.mem := rfl
@[simp] theorem State.halt_kbReady (s : State) : (s.halt).kbReady = s.kbReady := rfl
@[simp] theorem State.halt_kbData (s : State) : (s.halt).kbData = s.kbData := rfl
@[simp] theorem State.halt_run (s : State) : (s.halt).run = .halted := rfl
@[simp] theorem State.halt_fault (s : State) : (s.halt).fault = s.fault := rfl
@[simp] theorem State.halt_fetchAddr (s : State) : (s.halt).fetchAddr = s.fetchAddr := rfl
@[simp] theorem State.halt_fetchWord (s : State) : (s.halt).fetchWord = s.fetchWord := rfl
@[simp] theorem State.halt_console (s : State) : (s.halt).console = s.console := rfl

/-! ### The register view -/

theorem State.getReg_setReg (s : State) (r j : RegIdx) (v : Word) :
    (s.setReg r v).getReg j = if j = r then v else s.getReg j := by
  simp only [State.getReg, State.setReg, Vector.getElem_set]
  by_cases h : j = r
  · simp [h]
  · have hne : r.toNat ≠ j.toNat := fun e => h (BitVec.eq_of_toNat_eq e.symm)
    simp [h, hne]

@[simp] theorem State.getReg_setReg_same (s : State) (r : RegIdx) (v : Word) : (s.setReg r v).getReg r = v := by
  simp [State.getReg_setReg]

theorem State.getReg_setReg_of_ne {s : State} {r j : RegIdx} {v : Word} (h : j ≠ r) :
    (s.setReg r v).getReg j = s.getReg j := by
  simp [State.getReg_setReg, h]

theorem State.getReg_congr {s t : State} (h : t.regs = s.regs) (r : RegIdx) : t.getReg r = s.getReg r := by
  simp only [State.getReg, h]

@[simp] theorem State.getReg_setPc (s : State) (v : Word) (r : RegIdx) : (s.setPc v).getReg r = s.getReg r := rfl
@[simp] theorem State.getReg_memWrite (s : State) (a v : Word) (r : RegIdx) : (s.memWrite a v).getReg r = s.getReg r := rfl
@[simp] theorem State.getReg_raise (s : State) (x : FaultReason) (r : RegIdx) : (s.raise x).getReg r = s.getReg r := rfl
@[simp] theorem State.getReg_raiseIllegal (s : State) (r : RegIdx) : s.raiseIllegal.getReg r = s.getReg r := rfl
@[simp] theorem State.getReg_halt (s : State) (r : RegIdx) : s.halt.getReg r = s.getReg r := rfl

theorem State.getReg_link (s : State) (r : RegIdx) : s.link.getReg r = if r = 7 then s.pc else s.getReg r :=
  State.getReg_setReg s 7 r s.pc

/-! ### The cell view -/

theorem State.cell_congr {s t : State} (h : t.mem = s.mem) (a : Word) : t.cell a = s.cell a := by
  simp only [State.cell, h]

@[simp] theorem State.cell_setReg (s : State) (r : RegIdx) (v a : Word) : (s.setReg r v).cell a = s.cell a := rfl
@[simp] theorem State.cell_setPc (s : State) (v a : Word) : (s.setPc v).cell a = s.cell a := rfl
@[simp] theorem State.cell_link (s : State) (a : Word) : s.link.cell a = s.cell a := rfl
@[simp] theorem State.cell_raise (s : State) (x : FaultReason) (a : Word) : (s.raise x).cell a = s.cell a := rfl
@[simp] theorem State.cell_raiseIllegal (s : State) (a : Word) : s.raiseIllegal.cell a = s.cell a := rfl
@[simp] theorem State.cell_halt (s : State) (a : Word) : s.halt.cell a = s.cell a := rfl

/-! ### The address views -/

@[simp] theorem State.pcRelative_eq (s : State) (offset : Word) : s.pcRelative offset = s.pc + offset := rfl
@[simp] theorem State.baseOffset_eq (s : State) (r : RegIdx) (offset : Word) :
    s.baseOffset r offset = s.getReg r + offset := rfl

end Sys2Proof.Machine
end

