-- ==== Sys2Proof/Laws/Memory.lean ====
section
/-! SUPPORT. The memory array: read after write, and that every memory operation keeps the canonical form. -/

namespace Sys2Proof.Machine

@[simp] theorem Memory.read_nil (k : Nat) : Memory.read [] k = unlistedWord := rfl

theorem Memory.wfFrom_cons {lo a : Nat} {v : Word} {rest : Memory} :
    Memory.wfFrom lo ((a, v) :: rest) = true ↔
      lo ≤ a ∧ a < 65536 ∧ v ≠ unlistedWord ∧ Memory.wfFrom (a + 1) rest = true := by
  simp [Memory.wfFrom, and_assoc]

theorem Memory.wfFrom_mono {lo lo' : Nat} {m : Memory} (hle : lo' ≤ lo) (h : m.wfFrom lo = true) : m.wfFrom lo' = true := by
  cases m with
  | nil => rfl
  | cons c rest =>
    obtain ⟨a, v⟩ := c
    rw [Memory.wfFrom_cons] at h ⊢
    exact ⟨by omega, h.2⟩

/-- Below the first address that may be listed, nothing is listed. -/
theorem Memory.read_below {lo k : Nat} {m : Memory} (h : m.wfFrom lo = true) (hk : k < lo) : m.read k = unlistedWord := by
  induction m generalizing lo with
  | nil => rfl
  | cons c rest ih =>
    obtain ⟨a, v⟩ := c
    rw [Memory.wfFrom_cons] at h
    simp only [Memory.read]
    rw [if_neg (by omega)]
    exact ih h.2.2.2 (by omega)

/-- A write leaves every other cell alone, in every list. -/
theorem Memory.read_write_of_ne {m : Memory} {k j : Nat} {v : Word} (h : j ≠ k) : (m.write k v).read j = m.read j := by
  induction m with
  | nil => simp only [Memory.write]; split <;> simp [Memory.read, Ne.symm h]
  | cons c rest ih =>
    obtain ⟨a, u⟩ := c
    simp only [Memory.write]
    split
    · split <;> simp [Memory.read, Ne.symm h]
    · split
      · rename_i hka
        subst hka
        split <;> simp [Memory.read, Ne.symm h]
      · simp only [Memory.read, ih]

/-- A write is read back, in canonical memory. -/
theorem Memory.read_write_same {m : Memory} {lo k : Nat} {v : Word} (h : m.wfFrom lo = true) : (m.write k v).read k = v := by
  induction m generalizing lo with
  | nil => simp only [Memory.write]; split <;> simp_all [Memory.read]
  | cons c rest ih =>
    obtain ⟨a, u⟩ := c
    have hc := Memory.wfFrom_cons.1 h
    simp only [Memory.write]
    split
    · rename_i hlt
      split
      · rename_i hv
        rw [hv]
        exact Memory.read_below (lo := a) (Memory.wfFrom_cons.2 ⟨le_refl a, hc.2⟩) hlt
      · simp [Memory.read]
    · split
      · rename_i hka
        split
        · rename_i hv
          rw [hv]
          exact Memory.read_below hc.2.2.2 (by omega)
        · simp [Memory.read]
      · rename_i hka
        simp only [Memory.read]
        rw [if_neg (Ne.symm hka)]
        exact ih hc.2.2.2

theorem Memory.wfFrom_write {m : Memory} {lo k : Nat} {v : Word} (h : m.wfFrom lo = true) (hlo : lo ≤ k) (hk : k < 65536) :
    (m.write k v).wfFrom lo = true := by
  induction m generalizing lo with
  | nil =>
    simp only [Memory.write]
    split
    · rfl
    · rename_i hv
      exact Memory.wfFrom_cons.2 ⟨hlo, hk, hv, rfl⟩
  | cons c rest ih =>
    obtain ⟨a, u⟩ := c
    have hc := Memory.wfFrom_cons.1 h
    simp only [Memory.write]
    split
    · rename_i hlt
      split
      · exact h
      · rename_i hv
        exact Memory.wfFrom_cons.2 ⟨hlo, hk, hv, Memory.wfFrom_cons.2 ⟨by omega, hc.2⟩⟩
    · split
      · rename_i hka
        split
        · exact Memory.wfFrom_mono (by omega) hc.2.2.2
        · rename_i hv
          exact Memory.wfFrom_cons.2 ⟨by omega, by omega, hv, hka ▸ hc.2.2.2⟩
      · exact Memory.wfFrom_cons.2 ⟨hc.1, hc.2.1, hc.2.2.1, ih hc.2.2.2 (by omega)⟩

/-- Every write keeps the canonical form. -/
theorem Memory.wf_write {m : Memory} {k : Nat} {v : Word} (h : m.wf = true) (hk : k < 65536) : (m.write k v).wf = true :=
  Memory.wfFrom_write h (Nat.zero_le k) hk

theorem State.wf_memWrite {s : State} (h : s.mem.wf = true) (a v : Word) : (s.memWrite a v).mem.wf = true :=
  Memory.wf_write h a.isLt

theorem State.cell_memWrite_of_ne {s : State} {a b v : Word} (h : b ≠ a) : (s.memWrite a v).cell b = s.cell b :=
  Memory.read_write_of_ne fun e => h (BitVec.eq_of_toNat_eq e)

theorem State.cell_memWrite_same {s : State} (h : s.mem.wf = true) (a v : Word) : (s.memWrite a v).cell a = v :=
  Memory.read_write_same h

/-- The loader's stores keep the canonical form too. -/
theorem State.wf_storeWords {ws : List Word} {s : State} {a : Word} (h : s.mem.wf = true) :
    (s.storeWords a ws).mem.wf = true := by
  induction ws generalizing s a with
  | nil => exact h
  | cons w ws ih => exact ih (State.wf_memWrite h a w)

theorem reset_mem_wf : State.reset.mem.wf = true := rfl

end Sys2Proof.Machine
end

