-- ==== Sys2Proof/Laws/Ops.lean ====
section
/-! SUPPORT. What each shared operation can do, said once: the read path, the console calls, the services. -/

namespace Sys2Proof.Machine

/-- `t` is `s` after accesses to the keyboard latch and the console only: the machine's other state is the same, the output has
only grown, and the listed answers have only been used up from the front. -/
structure State.ByAccess (s t : State) : Prop where
  regs : t.regs = s.regs
  pc : t.pc = s.pc
  cond : t.cond = s.cond
  mem : t.mem = s.mem
  run : t.run = s.run
  fault : t.fault = s.fault
  fetchAddr : t.fetchAddr = s.fetchAddr
  fetchWord : t.fetchWord = s.fetchWord
  output : s.console.output <+: t.console.output
  input : t.console.input <:+ s.console.input

namespace State.ByAccess

theorem refl (s : State) : s.ByAccess s :=
  ⟨rfl, rfl, rfl, rfl, rfl, rfl, rfl, rfl, List.prefix_refl _, List.suffix_refl _⟩

theorem trans {s t u : State} (h : s.ByAccess t) (h' : t.ByAccess u) : s.ByAccess u where
  regs := h'.regs.trans h.regs
  pc := h'.pc.trans h.pc
  cond := h'.cond.trans h.cond
  mem := h'.mem.trans h.mem
  run := h'.run.trans h.run
  fault := h'.fault.trans h.fault
  fetchAddr := h'.fetchAddr.trans h.fetchAddr
  fetchWord := h'.fetchWord.trans h.fetchWord
  output := h.output.trans h'.output
  input := h'.input.trans h.input

theorem getReg {s t : State} (h : s.ByAccess t) (r : RegIdx) : t.getReg r = s.getReg r := State.getReg_congr h.regs r

theorem cell {s t : State} (h : s.ByAccess t) (a : Word) : t.cell a = s.cell a := State.cell_congr h.mem a

end State.ByAccess

/-! ### The read path -/

theorem State.hostTryRead_byAccess (s : State) : s.ByAccess s.hostTryRead.2 := by
  unfold State.hostTryRead
  split <;> constructor <;> simp_all

theorem State.hostTryRead_latch (s : State) :
    s.hostTryRead.2.kbReady = s.kbReady ∧ s.hostTryRead.2.kbData = s.kbData ∧
      s.hostTryRead.2.console.output = s.console.output := by
  unfold State.hostTryRead
  split <;> simp

theorem State.kbsrRead_byAccess (s : State) : s.ByAccess s.kbsrRead.2 := by
  unfold State.kbsrRead
  split
  · exact .refl s
  · have h := s.hostTryRead_byAccess
    split <;> rename_i heq <;> rw [heq] at h <;> exact ⟨h.1, h.2, h.3, h.4, h.5, h.6, h.7, h.8, h.9, h.10⟩

theorem State.kbdrRead_byAccess (s : State) : s.ByAccess s.kbdrRead.2 :=
  ⟨rfl, rfl, rfl, rfl, rfl, rfl, rfl, rfl, List.prefix_refl _, List.suffix_refl _⟩

theorem State.memRead_byAccess (s : State) (a : Word) : s.ByAccess (s.memRead a).2 := by
  unfold State.memRead
  split
  · exact s.kbsrRead_byAccess
  · split
    · exact s.kbdrRead_byAccess
    · exact .refl s

theorem State.memRead_plain {s : State} {a : Word} (h : isDevice a = false) : s.memRead a = (s.cell a, s) := by
  simp only [isDevice, Bool.or_eq_false_iff, beq_eq_false_iff_ne] at h
  simp [State.memRead, h.1, h.2]

theorem State.memRead_output (s : State) (a : Word) : (s.memRead a).2.console.output = s.console.output := by
  have ht := s.hostTryRead_latch.2.2
  unfold State.memRead State.kbsrRead State.kbdrRead
  repeat' split
  all_goals first | rfl | (rename_i heq; rw [heq] at ht; exact ht)

theorem State.kbsrRead_value (s : State) : s.kbsrRead.1 = 0x8000 ∧ s.kbsrRead.2.kbReady = true ∨
    s.kbsrRead.1 = 0 ∧ s.kbsrRead.2.kbReady = false := by
  have ht := s.hostTryRead_latch.1
  unfold State.kbsrRead
  split
  · simp_all
  · split <;> simp_all

/-! ### The console -/

theorem State.hostReadFrom_yields {s t : State} {l : List ConsoleAnswer} {c : Byte} (hl : l <:+ s.console.input)
    (h : s.hostReadFrom l = .yields c t) :
    s.ByAccess t ∧ t.kbReady = s.kbReady ∧ t.kbData = s.kbData ∧ t.console.output = s.console.output := by
  induction l with
  | nil =>
    simp only [State.hostReadFrom, HostReadResult.yields.injEq] at h
    obtain ⟨-, rfl⟩ := h
    exact ⟨⟨rfl, rfl, rfl, rfl, rfl, rfl, rfl, rfl, List.prefix_refl _, List.nil_suffix⟩, rfl, rfl, rfl⟩
  | cons x rest ih =>
    have hr : rest <:+ s.console.input := (List.suffix_cons x rest).trans hl
    cases x <;> simp only [State.hostReadFrom, HostReadResult.yields.injEq, reduceCtorEq] at h
    · obtain ⟨-, rfl⟩ := h
      exact ⟨⟨rfl, rfl, rfl, rfl, rfl, rfl, rfl, rfl, List.prefix_refl _, hr⟩, rfl, rfl, rfl⟩
    · exact ih hr h

theorem State.hostReadFrom_fails {s t : State} {l : List ConsoleAnswer} (hl : l <:+ s.console.input)
    (h : s.hostReadFrom l = .fails t) :
    s.ByAccess t ∧ t.kbReady = s.kbReady ∧ t.kbData = s.kbData ∧ t.console.output = s.console.output := by
  induction l with
  | nil => simp only [State.hostReadFrom, reduceCtorEq] at h
  | cons x rest ih =>
    have hr : rest <:+ s.console.input := (List.suffix_cons x rest).trans hl
    cases x <;> simp only [State.hostReadFrom, HostReadResult.fails.injEq, reduceCtorEq] at h
    · exact ih hr h
    · subst h
      exact ⟨⟨rfl, rfl, rfl, rfl, rfl, rfl, rfl, rfl, List.prefix_refl _, hr⟩, rfl, rfl, rfl⟩

theorem State.hostRead_yields {s t : State} {c : Byte} (h : s.hostRead = .yields c t) :
    s.ByAccess t ∧ t.kbReady = s.kbReady ∧ t.kbData = s.kbData ∧ t.console.output = s.console.output :=
  State.hostReadFrom_yields (List.suffix_refl _) h

theorem State.hostRead_fails {s t : State} (h : s.hostRead = .fails t) :
    s.ByAccess t ∧ t.kbReady = s.kbReady ∧ t.kbData = s.kbData ∧ t.console.output = s.console.output :=
  State.hostReadFrom_fails (List.suffix_refl _) h

theorem State.hostWrite_byAccess (s : State) (c : Byte) :
    (∃ t, s.hostWrite c = .written t ∧ s.ByAccess t ∧ t.kbReady = s.kbReady ∧ t.kbData = s.kbData ∧
      t.console.output = s.console.output ++ [c] ∧ t.console.input = s.console.input) ∨
    s.hostWrite c = .fails s := by
  unfold State.hostWrite
  split
  · exact .inl ⟨_, rfl, ⟨rfl, rfl, rfl, rfl, rfl, rfl, rfl, rfl, List.prefix_append _ _, List.suffix_refl _⟩, rfl, rfl, rfl, rfl⟩
  · exact .inl ⟨_, rfl, ⟨rfl, rfl, rfl, rfl, rfl, rfl, rfl, rfl, List.prefix_append _ _, List.suffix_refl _⟩, rfl, rfl, rfl, rfl⟩
  · exact .inr rfl

theorem State.hostWriteAll_byAccess (s : State) (bytes : List Byte) :
    (∃ t, s.hostWriteAll bytes = .written t ∧ s.ByAccess t ∧ t.kbReady = s.kbReady ∧ t.kbData = s.kbData ∧
      t.console.output = s.console.output ++ bytes ∧ t.console.input = s.console.input) ∨
    (∃ t k, s.hostWriteAll bytes = .fails t ∧ s.ByAccess t ∧ t.kbReady = s.kbReady ∧ t.kbData = s.kbData ∧
      t.console.output = s.console.output ++ bytes.take k ∧ t.console.input = s.console.input) := by
  unfold State.hostWriteAll
  split
  · exact .inl ⟨_, rfl, ⟨rfl, rfl, rfl, rfl, rfl, rfl, rfl, rfl, List.prefix_append _ _, List.suffix_refl _⟩, rfl, rfl, rfl, rfl⟩
  · split
    · exact .inl ⟨_, rfl, ⟨rfl, rfl, rfl, rfl, rfl, rfl, rfl, rfl, List.prefix_append _ _, List.suffix_refl _⟩, rfl, rfl, rfl, rfl⟩
    · exact .inr ⟨_, _, rfl, ⟨rfl, rfl, rfl, rfl, rfl, rfl, rfl, rfl, List.prefix_append _ _, List.suffix_refl _⟩, rfl, rfl, rfl, rfl⟩

/-! ### The services -/

/-- A fatal console failure: accesses only, and then the fault is taken. -/
def State.ByFailure (s t : State) : Prop := ∃ u, s.ByAccess u ∧ t = u.raise .hostIOFailure

theorem serviceGetc_next {s t : State} (h : serviceGetc s = .next t) :
    (∃ c u, s.hostRead = .yields c u ∧ s.ByAccess u ∧ t = u.setReg 0 (zext8 c)) ∨ s.ByFailure t := by
  unfold serviceGetc at h
  split at h
  · rename_i c u heq
    exact .inl ⟨c, u, heq, (State.hostRead_yields heq).1, by simpa using h.symm⟩
  · rename_i u heq
    exact .inr ⟨u, (State.hostRead_fails heq).1, by simpa using h.symm⟩
  · simp at h

theorem serviceOut_next {s t : State} (h : serviceOut s = .next t) : s.ByAccess t ∨ s.ByFailure t := by
  unfold serviceOut at h
  obtain ⟨u, hu, hb, -⟩ | hf := s.hostWrite_byAccess (lowByte (s.getReg 0))
  · rw [hu] at h
    simp only [Host.Outcome.next.injEq] at h
    exact .inl (h ▸ hb)
  · rw [hf] at h
    exact .inr ⟨s, .refl s, by simpa using h.symm⟩

theorem putsLoop_next {fuel : Nat} {p : Word} {s t : State} (h : putsLoop fuel p s = .next t) : s.ByAccess t ∨ s.ByFailure t := by
  induction fuel generalizing p s with
  | zero => simp [putsLoop] at h
  | succ fuel ih =>
    have hm := s.memRead_byAccess p
    simp only [putsLoop] at h
    split at h
    · simp only [Host.Outcome.next.injEq] at h
      exact .inl (h ▸ hm)
    · obtain ⟨u, hu, hb, -⟩ | hf := (s.memRead p).2.hostWrite_byAccess (lowByte (s.memRead p).1)
      · rw [hu] at h
        obtain hr | ⟨v, hv, rfl⟩ := ih h
        · exact .inl ((hm.trans hb).trans hr)
        · exact .inr ⟨v, (hm.trans hb).trans hv, rfl⟩
      · rw [hf] at h
        exact .inr ⟨_, hm, by simpa using h.symm⟩

theorem serviceIn_next {s t : State} (h : serviceIn s = .next t) :
    (∃ c u, s.ByAccess u ∧ t = u.setReg 0 (zext8 c)) ∨ s.ByFailure t := by
  unfold serviceIn at h
  obtain ⟨u, hu, hb, -⟩ | ⟨u, k, hu, hb, -⟩ := s.hostWriteAll_byAccess Config.inPrompt
  · rw [hu] at h
    simp only at h
    split at h
    · rename_i v heq
      exact .inr ⟨v, hb.trans (State.hostRead_fails heq).1, by simpa using h.symm⟩
    · simp at h
    · rename_i c v heq
      have hv := hb.trans (State.hostRead_yields heq).1
      obtain ⟨w, hw, hwb, -⟩ | hf := v.hostWrite_byAccess c
      · rw [hw] at h
        exact .inl ⟨c, w, hv.trans hwb, by simpa using h.symm⟩
      · rw [hf] at h
        exact .inr ⟨v, hv, by simpa using h.symm⟩
  · rw [hu] at h
    exact .inr ⟨u, hb, by simpa using h.symm⟩

theorem serviceHalt_next {s t : State} (h : serviceHalt s = .next t) : (∃ u, s.ByAccess u ∧ t = u.halt) ∨ s.ByFailure t := by
  unfold serviceHalt at h
  obtain ⟨u, hu, hb, -⟩ | ⟨u, k, hu, hb, -⟩ := s.hostWriteAll_byAccess Config.haltMessage
  · rw [hu] at h
    exact .inl ⟨u, hb, by simpa using h.symm⟩
  · rw [hu] at h
    exact .inr ⟨u, hb, by simpa using h.symm⟩

end Sys2Proof.Machine
end

