-- ==== Sys2Proof/Laws/Exec.lean ====
section
/-! SUPPORT. What each TRAP service can do when it answers a next state, and what the fetch leaves. -/

namespace Sys2Proof.Machine

/-! ### The fetch -/

@[simp] theorem State.fetch_pc (s : State) : s.fetch.2.pc = s.pc + 1 := rfl
@[simp] theorem State.fetch_fetchAddr (s : State) : s.fetch.2.fetchAddr = s.pc := rfl
@[simp] theorem State.fetch_fetchWord (s : State) : s.fetch.2.fetchWord = s.fetch.1 := rfl
@[simp] theorem State.fetch_regs (s : State) : s.fetch.2.regs = s.regs := (s.memRead_byAccess s.pc).regs
@[simp] theorem State.fetch_cond (s : State) : s.fetch.2.cond = s.cond := (s.memRead_byAccess s.pc).cond
@[simp] theorem State.fetch_mem (s : State) : s.fetch.2.mem = s.mem := (s.memRead_byAccess s.pc).mem
@[simp] theorem State.fetch_run (s : State) : s.fetch.2.run = s.run := (s.memRead_byAccess s.pc).run
@[simp] theorem State.fetch_fault (s : State) : s.fetch.2.fault = s.fault := (s.memRead_byAccess s.pc).fault

theorem State.fetch_plain {s : State} (h : isDevice s.pc = false) :
    s.fetch = (s.cell s.pc, { s with pc := s.pc + 1, fetchAddr := s.pc, fetchWord := s.cell s.pc }) := by
  simp only [State.fetch, State.memRead_plain h]

/-! ### The services, from the link write on -/

theorem execGetc_next {s t : State} (h : execGetc s = .next t) :
    ∃ u, s.link.ByAccess u ∧ ((∃ c, t = u.setReg 0 (zext8 c)) ∨ t = u.raise .hostIOFailure) := by
  obtain ⟨c, u, -, hu, rfl⟩ | ⟨u, hu, rfl⟩ := serviceGetc_next h
  · exact ⟨u, hu, .inl ⟨c, rfl⟩⟩
  · exact ⟨u, hu, .inr rfl⟩

theorem execOut_next {s t : State} (h : execOut s = .next t) :
    ∃ u, s.link.ByAccess u ∧ (t = u ∨ t = u.raise .hostIOFailure) := by
  obtain hu | ⟨u, hu, rfl⟩ := serviceOut_next h
  · exact ⟨t, hu, .inl rfl⟩
  · exact ⟨u, hu, .inr rfl⟩

theorem execPuts_next {s t : State} (h : execPuts s = .next t) :
    ∃ u, s.link.ByAccess u ∧ (t = u ∨ t = u.raise .hostIOFailure) := by
  obtain hu | ⟨u, hu, rfl⟩ := putsLoop_next h
  · exact ⟨t, hu, .inl rfl⟩
  · exact ⟨u, hu, .inr rfl⟩

theorem execIn_next {s t : State} (h : execIn s = .next t) :
    ∃ u, s.link.ByAccess u ∧ ((∃ c, t = u.setReg 0 (zext8 c)) ∨ t = u.raise .hostIOFailure) := by
  obtain ⟨c, u, hu, rfl⟩ | ⟨u, hu, rfl⟩ := serviceIn_next h
  · exact ⟨u, hu, .inl ⟨c, rfl⟩⟩
  · exact ⟨u, hu, .inr rfl⟩

theorem execHalt_next {s t : State} (h : execHalt s = .next t) :
    ∃ u, s.link.ByAccess u ∧ (t = u.halt ∨ t = u.raise .hostIOFailure) := by
  obtain ⟨u, hu, rfl⟩ | ⟨u, hu, rfl⟩ := serviceHalt_next h
  · exact ⟨u, hu, .inl rfl⟩
  · exact ⟨u, hu, .inr rfl⟩

/-- A TRAP with a served vector is its service's instruction; any other raises IllegalInstruction after the link write. -/
theorem execTrap_cases (vector : Byte) (s : State) :
    (vector = 0x20 ∧ execTrap vector s = execGetc s) ∨ (vector = 0x21 ∧ execTrap vector s = execOut s) ∨
      (vector = 0x22 ∧ execTrap vector s = execPuts s) ∨ (vector = 0x23 ∧ execTrap vector s = execIn s) ∨
      (vector = 0x25 ∧ execTrap vector s = execHalt s) ∨
      (serviceOf vector = none ∧ execTrap vector s = .next s.link.raiseIllegal) := by
  unfold execTrap serviceOf
  repeat' split
  all_goals simp_all [execGetc, execOut, execPuts, execIn, execHalt]

end Sys2Proof.Machine
end

