-- ==== Sys2Proof/Laws/PerInstr.lean ====
section
/-! SUPPORT. Per instruction: the encoder puts the opcode of 30_encoding.md R84 in bits 15..12. -/

namespace Sys2Proof.Laws.OpcodeField

open Sys2Proof.Machine

/-- The opcode value of each instruction (30_encoding.md R84). -/
def opcodeOf : Instr → BitVec 4
  | .br _ _ _ _ => 0b0000
  | .addRegMode _ _ _ => 0b0001
  | .addImmediateMode _ _ _ => 0b0001
  | .ld _ _ => 0b0010
  | .st _ _ => 0b0011
  | .jsr _ => 0b0100
  | .jsrr _ => 0b0100
  | .andRegMode _ _ _ => 0b0101
  | .andImmediateMode _ _ _ => 0b0101
  | .ldr _ _ _ => 0b0110
  | .str _ _ _ => 0b0111
  | .rti => 0b1000
  | .not _ _ => 0b1001
  | .ldi _ _ => 0b1010
  | .sti _ _ => 0b1011
  | .jmp _ => 0b1100
  | .ret => 0b1100
  | .res => 0b1101
  | .lea _ _ => 0b1110
  | .trap _ => 0b1111
  | .getc => 0b1111
  | .out => 0b1111
  | .puts => 0b1111
  | .inp => 0b1111
  | .halt => 0b1111

/-- The encoded word carries the instruction's opcode. -/
def Statement (i : Instr) : Prop := (encode i).extractLsb' 12 4 = opcodeOf i

/-- A field that ends below bit 12 leaves the opcode bits alone. -/
theorem opcode_or_place {n lo : Nat} (w : Word) (v : BitVec n) (h : n + lo ≤ 12) :
    (w ||| place v lo).extractLsb' 12 4 = w.extractLsb' 12 4 := by
  apply BitVec.eq_of_getLsbD_eq
  intro k hk
  have hv : v.getLsbD (12 + k - lo) = false := BitVec.getLsbD_of_ge _ _ (by omega)
  simp [place, hk, hv]

theorem addRegMode (dr sr1 sr2 : RegIdx) : Statement (.addRegMode dr sr1 sr2) := by
  simp only [Statement, encode, opcodeOf]
  rw [opcode_or_place _ _ (by omega), opcode_or_place _ _ (by omega), opcode_or_place _ _ (by omega)]
  rfl

theorem addImmediateMode (dr sr1 : RegIdx) (imm5 : Word) : Statement (.addImmediateMode dr sr1 imm5) := by
  simp only [Statement, encode, opcodeOf]
  rw [opcode_or_place _ _ (by omega), opcode_or_place _ _ (by omega), opcode_or_place _ _ (by omega)]
  rfl

theorem andRegMode (dr sr1 sr2 : RegIdx) : Statement (.andRegMode dr sr1 sr2) := by
  simp only [Statement, encode, opcodeOf]
  rw [opcode_or_place _ _ (by omega), opcode_or_place _ _ (by omega), opcode_or_place _ _ (by omega)]
  rfl

theorem andImmediateMode (dr sr1 : RegIdx) (imm5 : Word) : Statement (.andImmediateMode dr sr1 imm5) := by
  simp only [Statement, encode, opcodeOf]
  rw [opcode_or_place _ _ (by omega), opcode_or_place _ _ (by omega), opcode_or_place _ _ (by omega)]
  rfl

theorem not (dr sr : RegIdx) : Statement (.not dr sr) := by
  simp only [Statement, encode, opcodeOf]
  rw [opcode_or_place _ _ (by omega), opcode_or_place _ _ (by omega)]
  rfl

theorem br (n z p : Bool) (offset : Word) : Statement (.br n z p offset) := by
  simp only [Statement, encode, opcodeOf]
  rw [opcode_or_place _ _ (by omega), opcode_or_place _ _ (by omega), opcode_or_place _ _ (by omega), opcode_or_place _ _ (by omega)]
  rfl

theorem jmp (baseR : RegIdx) : Statement (.jmp baseR) := by
  simp only [Statement, encode, opcodeOf]
  rw [opcode_or_place _ _ (by omega)]
  rfl

theorem ret : Statement .ret := rfl

theorem jsr (offset : Word) : Statement (.jsr offset) := by
  simp only [Statement, encode, opcodeOf]
  rw [opcode_or_place _ _ (by omega)]
  rfl

theorem jsrr (baseR : RegIdx) : Statement (.jsrr baseR) := by
  simp only [Statement, encode, opcodeOf]
  rw [opcode_or_place _ _ (by omega)]
  rfl

theorem ld (dr : RegIdx) (offset : Word) : Statement (.ld dr offset) := by
  simp only [Statement, encode, opcodeOf]
  rw [opcode_or_place _ _ (by omega), opcode_or_place _ _ (by omega)]
  rfl

theorem ldi (dr : RegIdx) (offset : Word) : Statement (.ldi dr offset) := by
  simp only [Statement, encode, opcodeOf]
  rw [opcode_or_place _ _ (by omega), opcode_or_place _ _ (by omega)]
  rfl

theorem ldr (dr baseR : RegIdx) (offset : Word) : Statement (.ldr dr baseR offset) := by
  simp only [Statement, encode, opcodeOf]
  rw [opcode_or_place _ _ (by omega), opcode_or_place _ _ (by omega), opcode_or_place _ _ (by omega)]
  rfl

theorem lea (dr : RegIdx) (offset : Word) : Statement (.lea dr offset) := by
  simp only [Statement, encode, opcodeOf]
  rw [opcode_or_place _ _ (by omega), opcode_or_place _ _ (by omega)]
  rfl

theorem st (sr : RegIdx) (offset : Word) : Statement (.st sr offset) := by
  simp only [Statement, encode, opcodeOf]
  rw [opcode_or_place _ _ (by omega), opcode_or_place _ _ (by omega)]
  rfl

theorem sti (sr : RegIdx) (offset : Word) : Statement (.sti sr offset) := by
  simp only [Statement, encode, opcodeOf]
  rw [opcode_or_place _ _ (by omega), opcode_or_place _ _ (by omega)]
  rfl

theorem str (sr baseR : RegIdx) (offset : Word) : Statement (.str sr baseR offset) := by
  simp only [Statement, encode, opcodeOf]
  rw [opcode_or_place _ _ (by omega), opcode_or_place _ _ (by omega), opcode_or_place _ _ (by omega)]
  rfl

theorem trap (vector : Byte) : Statement (.trap vector) := by
  simp only [Statement, encode, opcodeOf]
  rw [opcode_or_place _ _ (by omega)]
  rfl

theorem getc : Statement .getc := rfl

theorem out : Statement .out := rfl

theorem puts : Statement .puts := rfl

theorem inp : Statement .inp := rfl

theorem halt : Statement .halt := rfl

theorem rti : Statement .rti := rfl

theorem res : Statement .res := rfl

end Sys2Proof.Laws.OpcodeField
end

