-- ==== Sys2Proof/Tests/Slice0.lean ====
section
/-! SUPPORT. Small tests, expected values from 95_test_vectors.md and the examples of the rules, and the witnesses of the
statements' hypotheses. -/

namespace Sys2Proof.Tests

open Sys2Proof.Machine Sys2Proof.Safety Sys2Proof.Claims

/-! ### Well-formedness: an ill-formed term for each check -/

theorem test_wf_refuses_add_imm5_16 : (Instr.addImmediateMode 0 0 16).wellFormed = false := by decide
theorem test_wf_refuses_and_imm5_zero_extended : (Instr.andImmediateMode 0 0 0x001F).wellFormed = false := by decide
theorem test_wf_refuses_br_offset_256 : (Instr.br true false false 256).wellFormed = false := by decide
theorem test_wf_refuses_jmp_through_r7 : (Instr.jmp 7).wellFormed = false := by decide
theorem test_wf_refuses_jsr_offset_1024 : (Instr.jsr 1024).wellFormed = false := by decide
theorem test_wf_refuses_ld_offset_256 : (Instr.ld 0 256).wellFormed = false := by decide
theorem test_wf_refuses_ldi_offset_below : (Instr.ldi 0 0xFEFF).wellFormed = false := by decide
theorem test_wf_refuses_ldr_offset_32 : (Instr.ldr 0 0 32).wellFormed = false := by decide
theorem test_wf_refuses_lea_offset_256 : (Instr.lea 0 256).wellFormed = false := by decide
theorem test_wf_refuses_st_offset_256 : (Instr.st 0 256).wellFormed = false := by decide
theorem test_wf_refuses_sti_offset_256 : (Instr.sti 0 256).wellFormed = false := by decide
theorem test_wf_refuses_str_offset_below : (Instr.str 0 0 0xFFDF).wellFormed = false := by decide
theorem test_wf_refuses_served_trap : (Instr.trap 0x25).wellFormed = false := by decide

/-! ### Decoding: words written out from 30_encoding.md (95_test_vectors.md section 2) -/

theorem test_decode_add_reg : decode 0b0001_001_010_0_00_011 = .addRegMode 1 2 3 := by decide
theorem test_decode_add_reg_ignored : decode 0b0001_000_000_0_11_000 = .addRegMode 0 0 0 := by decide
theorem test_decode_add_imm : decode 0b0001_111_000_1_11000 = .addImmediateMode 7 0 0xFFF8 := by decide
theorem test_decode_and_reg : decode 0b0101_111_010_0_00_111 = .andRegMode 7 2 7 := by decide
theorem test_decode_and_imm : decode 0b0101_011_011_1_10000 = .andImmediateMode 3 3 0xFFF0 := by decide
theorem test_decode_not : decode 0b1001_101_101_000001 = .not 5 5 := by decide
theorem test_decode_br : decode 0b0000_001_111111101 = .br false false true 0xFFFD := by decide
theorem test_decode_br_lowest : decode 0b0000_100_100000000 = .br true false false 0xFF00 := by decide
theorem test_decode_jmp : decode 0b1100_111_000_111111 = .jmp 0 := by decide
theorem test_decode_ret : decode 0b1100_111_111_111111 = .ret := by decide
theorem test_decode_jsr : decode 0b0100_1_10000000000 = .jsr 0xFC00 := by decide
theorem test_decode_jsrr : decode 0b0100_0_11_111_111111 = .jsrr 7 := by decide
theorem test_decode_ld : decode 0b0010_111_000000101 = .ld 7 5 := by decide
theorem test_decode_ldi : decode 0b1010_000_111111110 = .ldi 0 0xFFFE := by decide
theorem test_decode_ldr : decode 0b0110_001_010_111111 = .ldr 1 2 0xFFFF := by decide
theorem test_decode_lea : decode 0b1110_110_100000000 = .lea 6 0xFF00 := by decide
theorem test_decode_st : decode 0b0011_111_000000101 = .st 7 5 := by decide
theorem test_decode_sti : decode 0b1011_000_111111110 = .sti 0 0xFFFE := by decide
theorem test_decode_str : decode 0b0111_001_010_111111 = .str 1 2 0xFFFF := by decide
theorem test_decode_trap : decode 0b1111_0000_10000000 = .trap 0x80 := by decide
theorem test_decode_getc : decode 0b1111_0000_00100000 = .getc := by decide
theorem test_decode_out : decode 0b1111_0000_00100001 = .out := by decide
theorem test_decode_puts : decode 0b1111_0000_00100010 = .puts := by decide
theorem test_decode_in : decode 0b1111_0000_00100011 = .inp := by decide
theorem test_decode_halt_ignored : decode 0b1111_1111_00100101 = .halt := by decide
theorem test_decode_rti : decode 0b1000_111111111111 = .rti := by decide
theorem test_decode_res : decode 0b1101_101010111100 = .res := by decide
theorem test_decode_operation_keeps_vector : decodeOperation 0xF025 = .trap 0x25 := by decide

/-! ### One step on a small state (95_test_vectors.md sections 3 to 6) -/

/-- The reset state with PC and COND given, as the vectors start. -/
def start (pc : Word) (cond : CondFlag) : State := { State.reset with pc := pc, cond := cond }

/-- A register set without touching COND, to write a start state down. -/
def put (s : State) (r : RegIdx) (v : Word) : State := { s with regs := s.regs.set r.toNat v r.isLt }

/-- The console's listed answers set. -/
def withInput (s : State) (input : List ConsoleAnswer) : State := { s with console := { s.console with input := input } }

/-- The reset state with a console whose writes fail after `n` more. -/
def failingAfter (n : Nat) : State := { State.reset with console := { Console.initial with writesUntilFailure := some n } }

/-- What is seen of the step that runs the word `w` in `s`. -/
def seen {α : Type} (w : Nat) (s : State) (view : State → α) : Option α :=
  match step (s.withFetchWord 16 w) with
  | .next t => some (view t)
  | .fault _ => none
  | .refused _ => none

/-- V-X2. -/
theorem test_add_reg_carry_discarded :
    seen 0x1042 (put (put (start 0x3000 .n) 1 0xFFFF) 2 1) (fun t => (t.getReg 0, t.cond, t.pc)) = some (0, .z, 0x3001) := by
  decide
/-- V-X8. -/
theorem test_add_reg_same_register :
    seen 0x1000 (put (start 0x3000 .z) 0 0x4000) (fun t => (t.getReg 0, t.cond)) = some (0x8000, .n) := by decide
/-- V-X7. -/
theorem test_add_imm_negative :
    seen 0x1230 (put (start 0x3000 .p) 0 0x10) (fun t => (t.getReg 1, t.getReg 0, t.cond)) = some (0, 0x10, .z) := by decide
/-- V-X9, but the destination is also a source: the example of R135. -/
theorem test_and_reg_destination_is_source :
    seen 0x5E87 (put (put (start 0x3000 .z) 2 0xF0F0) 7 0x8FF1) (fun t => (t.getReg 7, t.cond)) = some (0x80F0, .n) := by decide
/-- V-X13. -/
theorem test_and_imm_sign_extended :
    seen 0x56F0 (put (start 0x3000 .n) 3 0x1234) (fun t => (t.getReg 3, t.cond)) = some (0x1230, .p) := by decide
/-- V-X16. -/
theorem test_not :
    seen 0x9E00 (put (put (start 0x3000 .n) 0 0x8000) 7 0x1111) (fun t => (t.getReg 7, t.getReg 0, t.cond)) =
      some (0x7FFF, 0x8000, .p) := by decide
/-- V-X48. -/
theorem test_br_taken_wraps : seen 0x0E01 (start 0xFFFF .p) (fun t => (t.pc, t.cond)) = some (0x0001, .p) := by decide
/-- V-X43. -/
theorem test_br_not_taken : seen 0x03FD (start 0x3005 .z) (fun t => t.pc) = some 0x3006 := by decide
/-- V-X52. -/
theorem test_jmp : seen 0xC0C0 (put (start 0x3000 .n) 3 0x4000) (fun t => (t.pc, t.cond)) = some (0x4000, .n) := by decide
/-- V-X53. -/
theorem test_ret : seen 0xC1C0 (put (start 0x3000 .n) 7 0x3003) (fun t => (t.pc, t.cond)) = some (0x3003, .n) := by decide
/-- V-X58. -/
theorem test_jsr_link_sets_n :
    seen 0x4800 (start 0x7FFF .z) (fun t => (t.getReg 7, t.cond, t.pc)) = some (0x8000, .n, 0x8000) := by decide
/-- V-X57. -/
theorem test_jsr_backward : seen 0x4C00 (start 0x3400 .z) (fun t => (t.getReg 7, t.pc)) = some (0x3401, 0x3001) := by decide
/-- V-X60. -/
theorem test_jsrr_r7_falls_through :
    seen 0x41C0 (put (start 0x3004 .z) 7 0x5000) (fun t => (t.getReg 7, t.cond, t.pc)) = some (0x3005, .p, 0x3005) := by decide
/-- V-X62. -/
theorem test_jsrr : seen 0x4000 (put (start 0x9000 .z) 0 0x1234) (fun t => (t.getReg 7, t.cond, t.pc)) =
    some (0x9001, .n, 0x1234) := by decide
/-- V-X24. -/
theorem test_ld_own_word : seen 0x21FF (start 0x3010 .z) (fun t => (t.getReg 0, t.cond)) = some (0x21FF, .p) := by decide
/-- V-M8. -/
theorem test_ld_polls_keyboard :
    seen 0x2001 (withInput (start 0xFDFE .z) [.char 0x41]) (fun t => (t.getReg 0, t.cond, t.kbReady, t.kbData)) =
      some (0x8000, .n, true, 0x41) := by decide
/-- V-X28. -/
theorem test_ldi :
    seen 0xA003 (((start 0x3000 .z).memWrite 0x3004 0x4000).memWrite 0x4000 0x8001) (fun t => (t.getReg 0, t.cond)) =
      some (0x8001, .n) := by decide
/-- V-M3. -/
theorem test_ldi_keeps_latched_character :
    seen 0xA004 { withInput ((start 0x3000 .z).memWrite 0x3005 0xFE00) [.char 0x42] with kbReady := true, kbData := 0x41 }
      (fun t => (t.getReg 0, t.kbData, t.console.input)) = some (0x8000, 0x41, [.char 0x42]) := by decide
/-- V-X17. -/
theorem test_ldr_offset_is_sign_extended :
    seen 0x62BF (put (((start 0x3000 .z).memWrite 0x3FFF 0xABCD).memWrite 0x403F 0x1111) 2 0x4000)
      (fun t => (t.getReg 1, t.cond)) = some (0xABCD, .n) := by decide
/-- V-X21. -/
theorem test_ldr_base_is_destination :
    seen 0x6FFF ((start 0x3000 .z).memWrite 0xFFFF 0x8888) (fun t => (t.getReg 7, t.cond)) = some (0x8888, .n) := by decide
/-- V-X33. -/
theorem test_lea_zero : seen 0xE000 (start 0xFFFF .p) (fun t => (t.getReg 0, t.cond, t.pc)) = some (0, .z, 0) := by decide
/-- V-X35. -/
theorem test_st_over_itself :
    seen 0x31FF (start 0x3000 .p) (fun t => (t.cell 0x3000, t.cond, t.mem)) = some (0, .p, []) := by decide
/-- V-M12. -/
theorem test_st_to_device_is_unseen :
    seen 0x3001 { put (start 0xFDFE .z) 0 0x1234 with kbReady := true, kbData := 0x41 }
      (fun t => (t.kbReady, t.kbData, (t.memRead 0xFE00).1)) = some (true, 0x41, 0x8000) := by decide
/-- V-X37. -/
theorem test_sti :
    seen 0xB006 (put ((start 0x3002 .z).memWrite 0x3009 0x4001) 0 2) (fun t => (t.cell 0x4001, t.cell 0x3009, t.cond)) =
      some (2, 0x4001, .z) := by decide
/-- V-M14. -/
theorem test_sti_pointer_is_poll :
    seen 0xB001 (put (withInput (start 0xFDFE .z) [.char 0x41]) 0 0x5555) (fun t => (t.cell 0x8000, t.kbReady)) =
      some (0x5555, true) := by decide
/-- V-X41. -/
theorem test_str_wraps : seen 0x7FFF (put (start 0x3000 .z) 7 1) (fun t => t.cell 0x0000) = some 1 := by decide
/-- V-X39. -/
theorem test_str_negative_offset :
    seen 0x72BF (put (put (start 0x3000 .z) 1 0xAA) 2 0x4000) (fun t => (t.cell 0x3FFF, t.cond)) = some (0xAA, .z) := by decide
/-- V-F1. -/
theorem test_trap_unserved :
    seen 0xF024 State.reset (fun t => (t.getReg 7, t.cond, t.pc, t.outcome)) =
      some (0x3001, .p, 0x3001, some (.fault ⟨0x3000, .illegalInstruction 0xF024⟩)) := by decide
/-- V-X66. -/
theorem test_getc_ignores_latch :
    seen 0xF020 { withInput (start 0x3000 .z) [.char 0x42] with kbReady := true, kbData := 0x41 }
      (fun t => (t.getReg 0, t.getReg 7, t.kbReady, t.kbData)) = some (0x42, 0x3001, true, 0x41) := by decide
/-- V-F8. -/
theorem test_getc_console_fails :
    seen 0xF020 (put (withInput (start 0x3000 .z) [.idle, .unavailable]) 0 0x1234) (fun t => (t.getReg 0, t.pc, t.outcome)) =
      some (0x1234, 0x3001, some (.fault ⟨0x3000, .hostIOFailure⟩)) := by decide
/-- V-X67. -/
theorem test_out_low_byte :
    seen 0xF021 (put (start 0x3000 .z) 0 0x0141) (fun t => (t.console.output, t.getReg 0, t.getReg 7)) =
      some ([0x41], 0x0141, 0x3001) := by decide
/-- V-X68. -/
theorem test_puts :
    seen 0xF022 (put (((start 0x3001 .z).memWrite 0x3003 0x0048).memWrite 0x3004 0x0169) 0 0x3003)
      (fun t => (t.console.output, t.getReg 0, t.getReg 7, t.pc)) = some ([0x48, 0x69], 0x3003, 0x3002, 0x3002) := by decide
/-- V-X73. -/
theorem test_puts_over_the_keyboard :
    seen 0xF022 (put (withInput ((start 0x3000 .z).memWrite 0xFDFF 0x0041) [.char 0x43]) 0 0xFDFF)
      (fun t => (t.console.output, t.kbReady, t.kbData)) = some ([0x41, 0x00], true, 0x43) := by decide
/-- V-X74; the prompt is the open parameter. -/
theorem test_in :
    seen 0xF023 (withInput (start 0x3001 .z) [.char 0x7A]) (fun t => (t.console.output, t.getReg 0, t.getReg 7)) =
      some ([] ++ Config.inPrompt ++ [0x7A], 0x007A, 0x3002) := rfl
/-- V-X76; the message is the open parameter. -/
theorem test_halt :
    seen 0xFF25 (start 0x8000 .z) (fun t => (t.console.output, t.getReg 7, t.cond, t.outcome)) =
      some ([] ++ Config.haltMessage, 0x8001, .n, some .halted) := rfl
/-- V-F4. -/
theorem test_rti :
    seen 0x8000 (start 0x3001 .n) (fun t => (t.pc, t.cond, t.getReg 7, t.outcome)) =
      some (0x3002, .n, 0, some (.fault ⟨0x3001, .illegalInstruction 0x8000⟩)) := by decide
/-- V-F6. -/
theorem test_res_wraps :
    seen 0xDABC (start 0xFFFF .p) (fun t => (t.pc, t.cond, t.outcome)) =
      some (0x0000, .p, some (.fault ⟨0xFFFF, .illegalInstruction 0xDABC⟩)) := by decide
/-- V-M11: the fetch at 0xFE02 consumes the latched character and never sees the hidden cell. -/
theorem test_fetch_at_keyboard_data :
    (step { (start 0xFE02 .z).memWrite 0xFE02 0xF025 with kbReady := true, kbData := 0x41 } =
      .next { (start 0xFE02 .z).memWrite 0xFE02 0xF025 with
        kbData := 0x41, pc := 0xFE03, fetchAddr := 0xFE02, fetchWord := 0x41 }) := rfl
/-- V-I8: the image wraps past 0xFFFF. -/
theorem test_load_wraps :
    (boot [0xFF, 0xFF, 0x11, 0x11, 0x22, 0x22, 0x33, 0x33]).toOption.map (fun t => (t.mem, t.pc)) =
      some ([(0, 0x2222), (1, 0x3333), (0xFFFF, 0x1111)], 0x3000) := by decide
/-- V-I6. -/
theorem test_load_odd_image : (boot [0x30, 0x00, 0x12, 0x34, 0x56]).toOption = none := by decide

/-! ### Witnesses: states and operands that meet each statement's hypotheses -/

theorem witness_DecodeOfEncode : (Instr.jsr 0xFC00).wellFormed = true ∧ (Instr.ldr 7 7 0x001F).wellFormed = true := by decide
theorem witness_OperateWordsDecode :
    ((0x1FDF : Word).extractLsb' 12 4 = 0b0001#4 ∧ (0x1FDF : Word)[5] = false) ∧
      ((0x1FFF : Word).extractLsb' 12 4 = 0b0001#4 ∧ (0x1FFF : Word)[5] = true) ∧
      ((0x5000 : Word).extractLsb' 12 4 = 0b0101#4 ∧ (0x5000 : Word)[5] = false) ∧
      ((0x5020 : Word).extractLsb' 12 4 = 0b0101#4 ∧ (0x5020 : Word)[5] = true) ∧
      (0x9FFF : Word).extractLsb' 12 4 = 0b1001#4 := by decide
theorem witness_ControlAndSystemWordsDecode :
    (0x0000 : Word).extractLsb' 12 4 = 0b0000#4 ∧
      ((0xC180 : Word).extractLsb' 12 4 = 0b1100#4 ∧ (0xC180 : Word).extractLsb' 6 3 ≠ 7#3) ∧
      ((0xC1C0 : Word).extractLsb' 12 4 = 0b1100#4 ∧ (0xC1C0 : Word).extractLsb' 6 3 = 7#3) ∧
      ((0x4FFF : Word).extractLsb' 12 4 = 0b0100#4 ∧ (0x4FFF : Word)[11] = true) ∧
      ((0x47FF : Word).extractLsb' 12 4 = 0b0100#4 ∧ (0x47FF : Word)[11] = false) ∧
      (0xF0FF : Word).extractLsb' 12 4 = 0b1111#4 ∧ (0x8FFF : Word).extractLsb' 12 4 = 0b1000#4 ∧
      (0xDFFF : Word).extractLsb' 12 4 = 0b1101#4 := by decide
theorem witness_LoadStoreWordsDecode :
    (0x2FFF : Word).extractLsb' 12 4 = 0b0010#4 ∧ (0xA000 : Word).extractLsb' 12 4 = 0b1010#4 ∧
      (0x6FFF : Word).extractLsb' 12 4 = 0b0110#4 ∧ (0xEFFF : Word).extractLsb' 12 4 = 0b1110#4 ∧
      (0x3000 : Word).extractLsb' 12 4 = 0b0011#4 ∧ (0xBFFF : Word).extractLsb' 12 4 = 0b1011#4 ∧
      (0x7000 : Word).extractLsb' 12 4 = 0b0111#4 := by decide
theorem witness_StepKeepsInvariant : Sound State.reset ∧ ∃ t, step State.reset = .next t :=
  ⟨⟨rfl, fun h => absurd rfl h⟩, _, rfl⟩
theorem witness_RegisterFilePorts :
    (RegName.gpr 7 ≠ .gpr 0 ∧ RegName.gpr 7 ≠ .cond) ∧ (RegName.pc ≠ .gpr 0 ∧ RegName.pc ≠ .cond) ∧
      RegName.pc.slot = RegName.pc.slot ∧ (start 0 .n).cond = .n ∧ (start 0 .z).cond = .z ∧ (start 0 .p).cond = .p := by decide
/-- Pointers at an ordinary address and at both device addresses. -/
theorem witness_LoadIndirectResult :
    ∃ s u v : State, ∃ p w, s.memRead (s.pc + 0xFE01#16) = (p, u) ∧ u.memRead p = (w, v) :=
  ⟨start 0xFFFF .z, _, _, _, _, rfl, rfl⟩
theorem witness_StoreIndirectResult : ∃ s u : State, ∃ p, s.memRead (s.pc + 0x00FF#16) = (p, u) := ⟨start 0xFF00 .z, _, _, rfl⟩
theorem witness_GetcResult :
    (withInput State.reset [.idle, .idle, .char 0xFF]).console.input = List.replicate 2 .idle ++ .char 0xFF :: [] ∧
      State.reset.console.input = List.replicate 0 .idle := ⟨rfl, rfl⟩
theorem witness_OutResult :
    State.reset.console.writesUntilFailure = none ∧ (failingAfter 1).console.writesUntilFailure = some (0 + 1) ∧
      (failingAfter 0).console.writesUntilFailure = some 0 := ⟨rfl, rfl, rfl⟩
/-- A string of two words that runs over the top of the address space. -/
def stringState : State := put (((failingAfter 2).memWrite 0xFFFF 0x0041).memWrite 0x0000 0x0142) 0 0xFFFF
theorem witness_PutsWritesTheString :
    2 < 65536 ∧ (∀ k, k ≤ 2 → isDevice (stringState.getReg 0 + BitVec.ofNat 16 k) = false) ∧
      (∀ k, k < 2 → stringState.cell (stringState.getReg 0 + BitVec.ofNat 16 k) ≠ 0) ∧
      stringState.cell (stringState.getReg 0 + BitVec.ofNat 16 2) = 0 ∧
      ∀ m, stringState.console.writesUntilFailure = some m → 2 ≤ m := by
  refine ⟨by decide, by decide, by decide, by decide, fun m h => ?_⟩
  have : some 2 = some m := h
  simp at this
  omega
/-- The same string on a console that takes one of its two characters. -/
theorem witness_PutsWritesTheString_failure :
    (put (((failingAfter 1).memWrite 0xFFFF 0x0041).memWrite 0x0000 0x0142) 0 0xFFFF).console.writesUntilFailure = some 1 ∧
      1 < 2 := ⟨rfl, by decide⟩
/-- The reset state ends PUTS at once, after a read that is no device's, and after a poll that finds no character. -/
theorem witness_PutsIsTheLoop :
    (∃ t, exec .puts State.reset = .next t) ∧ PutsRun State.reset.link (State.reset.getReg 0) State.reset.link ∧
      PutsRun (withInput State.reset [.idle]) 0xFE00 State.reset := ⟨⟨_, rfl⟩, .terminator rfl, .terminator rfl⟩
theorem witness_PutsCompletes :
    (isDevice 0xFE01 = false ∧ State.reset.cell 0xFE01 = 0) ∧ (failingAfter 0).console.writesUntilFailure = some 0 :=
  ⟨by decide, rfl⟩
theorem witness_InResult :
    (withInput State.reset [.idle, .char 0]).console.input = List.replicate 1 .idle ++ .char 0 :: [] ∧
      (withInput State.reset [.idle, .char 0]).console.writesUntilFailure = none ∧
      (withInput (failingAfter 0) [.char 0]).console.input = List.replicate 0 .idle ++ .char 0 :: [] ∧
      (withInput (failingAfter 0) [.char 0]).console.writesUntilFailure = some 0 := ⟨rfl, rfl, rfl, rfl⟩
/-- Just enough writes for the prompt and the echo. -/
theorem witness_InResult_echo :
    (failingAfter (Config.inPrompt.length + 1)).console.writesUntilFailure = some (Config.inPrompt.length + 1) ∧
      Config.inPrompt.length < Config.inPrompt.length + 1 := ⟨rfl, Nat.lt_succ_self _⟩
theorem witness_InFreeResult :
    State.reset.console.input = List.replicate 0 .idle ∧ State.reset.console.writesUntilFailure = none ∧
      (failingAfter 0).console.input = List.replicate 0 .idle ∧ (failingAfter 0).console.writesUntilFailure = some 0 ∧
      (failingAfter (Config.inPrompt.length + 1)).console.input = List.replicate 0 .idle := ⟨rfl, rfl, rfl, rfl, rfl⟩
theorem witness_HaltResult :
    State.reset.console.writesUntilFailure = none ∧ (failingAfter 0).console.writesUntilFailure = some 0 := ⟨rfl, rfl⟩
theorem witness_FailedReadTakesFault :
    (withInput State.reset [.idle, .unavailable]).console.input = List.replicate 1 .idle ++ .unavailable :: [] ∧
      (withInput State.reset [.idle, .unavailable]).console.writesUntilFailure = none ∧
      (withInput (failingAfter 0) [.unavailable]).console.input = List.replicate 0 .idle ++ .unavailable :: [] ∧
      (withInput (failingAfter 0) [.unavailable]).console.writesUntilFailure = some 0 := ⟨rfl, rfl, rfl, rfl⟩
theorem witness_UnansweredReadBlocks :
    (withInput State.reset [.silent]).console.input = List.replicate 0 .idle ++ .silent :: [] ∧
      (withInput State.reset [.silent]).console.writesUntilFailure = none ∧
      (withInput (failingAfter 0) [.silent]).console.input = List.replicate 0 .idle ++ .silent :: [] ∧
      (withInput (failingAfter 0) [.silent]).console.writesUntilFailure = some 0 := ⟨rfl, rfl, rfl, rfl⟩
theorem witness_TrapResult :
    (0x24 : Byte) ≠ 0x20 ∧ (0x24 : Byte) ≠ 0x21 ∧ (0x24 : Byte) ≠ 0x22 ∧ (0x24 : Byte) ≠ 0x23 ∧ (0x24 : Byte) ≠ 0x25 := by decide
theorem witness_WritingBytesIsTheLoop :
    (∃ t, (failingAfter 1).hostWrite 0x41 = .written t) ∧ ∃ t, (failingAfter 0).hostWrite 0x41 = .fails t :=
  ⟨⟨_, rfl⟩, _, rfl⟩
theorem witness_ReadPath : (0xFE01 : Word) ≠ 0xFE00 ∧ (0xFE01 : Word) ≠ 0xFE02 ∧ State.reset.mem.wf = true := by decide
theorem witness_WritePath : (0x0000 : Word) ≠ 0xFFFF ∧ State.reset.mem.wf = true := by decide
theorem witness_KeyboardStatusRead :
    ({ State.reset with kbReady := true } : State).kbReady = true ∧ State.reset.kbReady = false ∧
      (withInput State.reset [.char 0xFF]).console.input = .char 0xFF :: [] ∧
      (withInput State.reset [.idle]).console.input = .idle :: [] ∧
      (withInput State.reset [.unavailable]).console.input = .unavailable :: [] ∧
      (withInput State.reset [.silent]).console.input = .silent :: [] := ⟨rfl, rfl, rfl, rfl, rfl, rfl⟩
theorem witness_DeviceWritesAreUnseen : isDevice 0xFE00 = true ∧ isDevice 0xFE02 = true := by decide
theorem witness_StoreIsFetchedNext :
    let s := (start 0xFFFF .z).memWrite 0xFFFF 0x3E00
    s.run = .running ∧ s.mem.wf = true ∧ isDevice s.pc = false ∧ isDevice (s.pc + 1) = false ∧
      decode (s.cell s.pc) = .st 7 0 := by decide
/-- STR through R1 = 0x0001 with offset -1, and STI whose pointer at 0x0001 is 0x0000, both at the top of the address space. -/
theorem witness_StoreIsFetchedNext_others :
    (let s := put ((start 0xFFFF .z).memWrite 0xFFFF 0x707F) 1 0x0001
     s.mem.wf = true ∧ decode (s.cell s.pc) = .str 0 1 0xFFFF ∧ s.getReg 1 + 0xFFFF = s.pc + 1) ∧
      (let s := (start 0xFFFF .z).memWrite 0xFFFF 0xB001
       s.mem.wf = true ∧ decode (s.cell s.pc) = .sti 0 1 ∧ (s.fetch.2.memRead (s.pc + 1 + 1)).1 = s.pc + 1) := by decide
theorem witness_RegisterFrame :
    (∃ t, exec (.lea 0 1) State.reset = .next t) ∧ ¬ mayWrite (.lea 0 1) 7 ∧ (∃ t, exec (.st 0 1) State.reset = .next t) ∧
      ∀ r, ¬ mayWrite (.st 0 1) r := ⟨⟨_, rfl⟩, by simp [mayWrite], ⟨_, rfl⟩, fun _ h => h⟩
theorem witness_CondFollowsGeneralWrites :
    State.reset.run = .running ∧ (∃ t, exec .getc State.reset = .next t ∧ t.run = .running) ∧
      ∃ t, exec .getc (withInput State.reset [.unavailable]) = .next t ∧ t.run = .halted := ⟨rfl, ⟨_, rfl, rfl⟩, _, rfl, rfl⟩
theorem witness_CondFollowsGeneralWrites_services : writesR0 .getc ∧ writesR0 (.trap 0x23) := by simp [writesR0]
theorem witness_MemoryFrame :
    (∃ t, exec .puts State.reset = .next t) ∧ (∃ t, exec (.st 0 1) State.reset = .next t) ∧
      (0x3000 : Word) ≠ State.reset.pcRelative 1 ∧ (∃ t, exec (.str 0 1 1) State.reset = .next t) ∧
      (0x3000 : Word) ≠ State.reset.baseOffset 1 1 ∧ (∃ t, exec (.sti 0 1) State.reset = .next t) ∧
      (0x3000 : Word) ≠ (State.reset.indirect 1).1 :=
  ⟨⟨_, rfl⟩, ⟨_, rfl⟩, by decide, ⟨_, rfl⟩, by decide, ⟨_, rfl⟩, by decide⟩
theorem witness_MemoryFrame_no_store : ¬ storesMemory .puts := by simp [storesMemory]
theorem witness_ConsoleFrame :
    (∃ t, exec .ret State.reset = .next t) ∧ ¬ readsMemory .ret ∧ ¬ isTrap .ret ∧
      (∃ t, exec (.ld 0 0) State.reset = .next t) ∧ ¬ isTrap (.ld 0 0) ∧ (∃ t, exec .getc State.reset = .next t) ∧
      ¬ readsMemory .getc :=
  ⟨⟨_, rfl⟩, by simp [readsMemory], by simp [isTrap], ⟨_, rfl⟩, by simp [isTrap], ⟨_, rfl⟩, by simp [readsMemory]⟩
theorem witness_RunStateFrame :
    (∃ t, exec .ret State.reset = .next t) ∧ ¬ isTrap .ret ∧ Instr.ret ≠ .rti ∧ Instr.ret ≠ .res :=
  ⟨⟨_, rfl⟩, by simp [isTrap], by decide, by decide⟩
theorem witness_StepRunsDecodedInstruction :
    State.reset.run = .running ∧ (∃ w u, State.reset.memRead State.reset.pc = (w, u) ∧ decode w = .br false false false 0) ∧
      (∃ w u, (withInput (start 0xFE00 .z) [.char 0x41]).memRead 0xFE00 = (w, u) ∧ decode w = .rti) :=
  ⟨rfl, ⟨_, _, rfl, by decide⟩, _, _, rfl, by decide⟩
theorem witness_OnlyConsoleWaitsStop :
    step ((withInput State.reset [.silent]).withFetchWord 16 0xF020) = .fault .hostReadBlocked ∧
      step ((withInput State.reset [.silent]).withFetchWord 16 0xF023) = .fault .hostReadBlocked := ⟨rfl, rfl⟩
/-- A state at the top of the address space whose next word is `w`. -/
def atTop (w : Nat) : State := (start 0xFFFF .z).withFetchWord 16 w
theorem witness_ProgramCounterRule :
    (∀ w, w ∈ [0x1000, 0x0400, 0x0800, 0xC180, 0xC1C0, 0x4FFF, 0x4000] →
      (atTop w).run = .running ∧ seen w (start 0xFFFF .z) (fun _ => true) = some true) ∧
      decode (atTop 0x1000).fetch.1 = .addRegMode 0 0 0 ∧ decode (atTop 0x0400).fetch.1 = .br false true false 0 ∧
      decode (atTop 0x0800).fetch.1 = .br true false false 0 ∧ decode (atTop 0xC180).fetch.1 = .jmp 6 ∧
      decode (atTop 0xC1C0).fetch.1 = .ret ∧ decode (atTop 0x4FFF).fetch.1 = .jsr 0xFFFF ∧
      decode (atTop 0x4000).fetch.1 = .jsrr 0 := by decide
theorem witness_ProgramCounterRule_sequential : ¬ setsPc (.addRegMode 0 0 0) := by simp [setsPc]
theorem witness_HaltedStaysHalted : State.reset.halt.run = .halted := rfl
theorem witness_RunEndsOnlyByHaltOrFault :
    Sound (atTop 0xF025) ∧ (atTop 0xF025).run = .running ∧ (∃ t, step (atTop 0xF025) = .next t ∧ t.run = .halted) ∧
      Sound (atTop 0x8000) ∧ (∃ t, step (atTop 0x8000) = .next t ∧ t.run = .halted) ∧
      Sound ((failingAfter 0).withFetchWord 16 0xF021) ∧ ((failingAfter 0).withFetchWord 16 0xF021).run = .running ∧ ∃ t, step ((failingAfter 0).withFetchWord 16 0xF021) = .next t ∧ t.run = .halted :=
  ⟨⟨rfl, fun h => absurd rfl h⟩, rfl, ⟨_, rfl, rfl⟩, ⟨rfl, fun h => absurd rfl h⟩, ⟨_, rfl, rfl⟩,
    ⟨rfl, fun h => absurd rfl h⟩, rfl, _, rfl, rfl⟩
theorem witness_IllegalInstructionEndsRun :
    (atTop 0x8000).run = .running ∧ isIllegal (decode (atTop 0x8000).fetch.1) ∧ isIllegal (decode (atTop 0xD000).fetch.1) ∧
      isIllegal (decode (atTop 0xF0FF).fetch.1) :=
  ⟨rfl, .inl (by decide), .inr (.inl (by decide)), .inr (.inr ⟨0xFF, by decide, by decide⟩)⟩
theorem witness_StreamsOnlyGoForward : ∃ t, step ((withInput State.reset [.char 0x41]).withFetchWord 16 0xF020) = .next t :=
  ⟨_, rfl⟩
theorem witness_PlacedWordRunsNext :
    State.reset.mem.wf = true ∧ State.reset.run = .running ∧ isDevice State.reset.pc = false := by decide
theorem witness_ImageFormat :
    imageWords [0x30, 0x00, 0x12, 0x34] = some [0x3000, 0x1234] ∧ ([0x3000, 0x1234] : List Word)[1]? = some 0x1234 ∧
      ([0x30, 0x00, 0x12, 0x34] : List Byte)[2 * 1]? = some 0x12 ∧
      ([0x30, 0x00, 0x12, 0x34] : List Byte)[2 * 1 + 1]? = some 0x34 := by decide
theorem witness_LoadPlacesWords :
    State.reset.mem.wf = true ∧ imageWords [0xFF, 0xFF, 0x11, 0x11, 0x22, 0x22] = some (0xFFFF :: [0x1111, 0x2222]) ∧
      ([0x1111, 0x2222] : List Word) ≠ [] ∧ ([0x1111, 0x2222] : List Word).length ≤ 65536 ∧
      ([0x1111, 0x2222] : List Word)[1]? = some 0x2222 ∧
      ∀ k, k < ([0x1111, 0x2222] : List Word).length → (0x3000 : Word) ≠ 0xFFFF + BitVec.ofNat 16 k := by decide

end Sys2Proof.Tests
end

section
/-! Sign extension of a field (00_scope.md R8): its fill, and that it is the library's `BitVec.signExtend`. -/

namespace Sys2Proof.Machine

/-- The fill of R8: the field's top bit chooses between the ones from bit `n + 1` up and nothing. -/
theorem sext_eq_ite_topBit {n : Nat} (v : BitVec (n + 1)) :
    sext v = if v[n] then ((0xFFFF : Word) <<< (n + 1)) ||| v.setWidth 16 else v.setWidth 16 := by
  rw [sext, BitVec.msb_eq_getLsbD_last, Nat.add_sub_cancel, BitVec.getLsbD_eq_getElem n.lt_succ_self]

/-- `sext` is the library's sign extension, whose lemmas then serve: at each bit either the field's own or a one of the fill. -/
theorem sext_eq_signExtend {n : Nat} (v : BitVec n) : sext v = v.signExtend 16 := by
  cases hmsb : v.msb with
  | false => simp [sext, hmsb, BitVec.signExtend_eq_setWidth_of_msb_false hmsb]
  | true =>
    have hfill : (0xFFFF : Word) = BitVec.allOnes 16 := rfl
    ext i hi
    by_cases hfield : i < n
    · simp [sext, hmsb, BitVec.getElem_signExtend, hfield]
    · simp [sext, hmsb, hfill, BitVec.getElem_signExtend, hfield, -BitVec.reduceAllOnes]

/-- Sign extension keeps the signed number. -/
theorem toInt_sext {n : Nat} (hn : n ≤ 16) (v : BitVec n) : (sext v).toInt = v.toInt := by
  rw [sext_eq_signExtend, BitVec.toInt_signExtend_of_le hn]

/-- The two halves of R8 together, for a field of any width up to a Word's. -/
theorem sext_fill_and_toInt {n : Nat} (hn : n + 1 ≤ 16) (v : BitVec (n + 1)) :
    sext v = (if v[n] then ((0xFFFF : Word) <<< (n + 1)) ||| v.setWidth 16 else v.setWidth 16) ∧
      (sext v).toInt = v.toInt :=
  ⟨sext_eq_ite_topBit v, toInt_sext hn v⟩

end Sys2Proof.Machine

namespace Sys2Proof.Proofs

open Sys2Proof.Machine

/-- Settles O9: each width is an instance of `sext_fill_and_toInt`, its fill being 0xFFFF shifted left by the width. -/
theorem signExtensionRule : Obligations.SignExtensionRule :=
  ⟨sext_fill_and_toInt (by decide), sext_fill_and_toInt (by decide), sext_fill_and_toInt (by decide),
    sext_fill_and_toInt (by decide), rfl⟩

end Sys2Proof.Proofs
end

section
/-! The flag function (10_state.md R26): when each flag is answered, and bit 15 as the sign of the signed reading. -/

namespace Sys2Proof.Machine

/-- The condition of each flag: the three are exclusive, and one of them holds. -/
theorem flags_eq_iff (v : Word) :
    (flags v = .z ↔ v = 0) ∧ (flags v = .n ↔ v[15] = true) ∧ (flags v = .p ↔ v ≠ 0 ∧ v[15] = false) := by
  by_cases hz : v = 0#16
  · subst hz
    decide
  · cases hn : v[15] <;> simp [flags, hz, hn]

theorem toInt_eq_zero_iff (v : Word) : v.toInt = 0 ↔ v = 0 := BitVec.toInt_inj (y := 0)

theorem toInt_neg_iff (v : Word) : v.toInt < 0 ↔ v[15] = true := by
  rw [← decide_eq_true_iff (p := v.toInt < 0), ← BitVec.msb_eq_toInt, BitVec.msb_eq_getLsbD_last,
    BitVec.getLsbD_eq_getElem (by decide)]

theorem toInt_pos_iff (v : Word) : 0 < v.toInt ↔ v ≠ 0 ∧ v[15] = false := by
  rw [ne_eq, ← toInt_eq_zero_iff, ← Bool.not_eq_true, ← toInt_neg_iff]
  omega

end Sys2Proof.Machine

namespace Sys2Proof.Proofs

open Sys2Proof.Machine

/-- Settles O13: each flag's condition, and the same condition as the sign of the signed reading. -/
theorem flagFunctionRule : Obligations.FlagFunctionRule := fun v =>
  have ⟨hz, hn, hp⟩ := flags_eq_iff v
  ⟨hz, hn, hp, hz.trans (toInt_eq_zero_iff v).symm, hn.trans (toInt_neg_iff v).symm, hp.trans (toInt_pos_iff v).symm⟩

end Sys2Proof.Proofs
end

section
/-! What an instruction can do when it answers a next state, said once: the shapes that state can have, from which the frame
statements follow (10_state.md R25, R28, R32). -/

namespace Sys2Proof.Machine

open Sys2Proof.Claims

/-- The shapes of the state that `i` can answer from `s`, each with the class of instructions it belongs to. -/
inductive State.Effect (i : Instr) (s : State) : State → Prop where
  /-- ADD, AND, NOT, LEA and the loads: a register the instruction names, after its reads of memory. -/
  | writesReg {u : State} {r : RegIdx} {v : Word} : mayWrite i r → s.ByAccess u → s.Effect i (u.setReg r v)
  /-- ST, STI, STR: one cell, after the read of STI's pointer. -/
  | stores {u : State} {a v : Word} : storesMemory i → s.ByAccess u → s.Effect i (u.memWrite a v)
  /-- BR, JMP, RET: PC alone. -/
  | jumps {v : Word} : setsPc i → s.Effect i (s.setPc v)
  /-- JSR, JSRR: the link, then PC. -/
  | calls {v : Word} : setsPc i → mayWrite i 7 → s.Effect i (s.link.setPc v)
  /-- RTI, RES. -/
  | illegal : i = .rti ∨ i = .res → s.Effect i s.raiseIllegal
  /-- A service that returns and writes no register of its own: OUT, PUTS. -/
  | trapReturns {u : State} : isTrap i → s.link.ByAccess u → s.Effect i u
  /-- A service that returns a character in R0: GETC, IN. -/
  | trapReads {u : State} {c : Byte} : writesR0 i → s.link.ByAccess u → s.Effect i (u.setReg 0 (zext8 c))
  /-- HALT. -/
  | trapHalts {u : State} : isTrap i → s.link.ByAccess u → s.Effect i u.halt
  /-- A console failure, or an unserved vector. -/
  | trapFaults {u : State} {reason : FaultReason} : isTrap i → s.link.ByAccess u → s.Effect i (u.raise reason)

theorem isTrap_of_writesR0 {i : Instr} (h : writesR0 i) : isTrap i := by
  obtain rfl | rfl | rfl | rfl := h <;> simp [isTrap]

theorem mayWrite_zero_of_writesR0 {i : Instr} (h : writesR0 i) : mayWrite i 0 := by
  obtain rfl | rfl | rfl | rfl := h <;> simp [mayWrite]

/-- TRAP and its services write the link register. -/
theorem mayWrite_seven_of_isTrap {i : Instr} (h : isTrap i) : mayWrite i 7 := by
  obtain rfl | rfl | rfl | rfl | rfl | ⟨vector, rfl⟩ := h <;> simp [mayWrite]

namespace State.Effect

theorem of_readService {i : Instr} {s t : State} (hi : writesR0 i)
    (h : ∃ u, s.link.ByAccess u ∧ ((∃ c, t = u.setReg 0 (zext8 c)) ∨ t = u.raise .hostIOFailure)) : s.Effect i t := by
  obtain ⟨u, hu, ⟨c, rfl⟩ | rfl⟩ := h
  · exact .trapReads hi hu
  · exact .trapFaults (isTrap_of_writesR0 hi) hu

theorem of_writeService {i : Instr} {s t : State} (hi : isTrap i)
    (h : ∃ u, s.link.ByAccess u ∧ (t = u ∨ t = u.raise .hostIOFailure)) : s.Effect i t := by
  obtain ⟨u, hu, rfl | rfl⟩ := h
  · exact .trapReturns hi hu
  · exact .trapFaults hi hu

theorem of_haltService {i : Instr} {s t : State} (hi : isTrap i)
    (h : ∃ u, s.link.ByAccess u ∧ (t = u.halt ∨ t = u.raise .hostIOFailure)) : s.Effect i t := by
  obtain ⟨u, hu, rfl | rfl⟩ := h
  · exact .trapHalts hi hu
  · exact .trapFaults hi hu

theorem of_execTrap {vector : Byte} {s t : State} (h : execTrap vector s = .next t) : s.Effect (.trap vector) t := by
  have hi : isTrap (.trap vector) := by simp [isTrap]
  obtain ⟨rfl, e⟩ | ⟨rfl, e⟩ | ⟨rfl, e⟩ | ⟨rfl, e⟩ | ⟨rfl, e⟩ | ⟨-, e⟩ := execTrap_cases vector s <;> rw [e] at h
  · exact of_readService (by simp [writesR0]) (execGetc_next h)
  · exact of_writeService hi (execOut_next h)
  · exact of_writeService hi (execPuts_next h)
  · exact of_readService (by simp [writesR0]) (execIn_next h)
  · exact of_haltService hi (execHalt_next h)
  · cases h
    exact .trapFaults hi (.refl _)

end State.Effect

/-- BR as one write of PC: not taken, it writes the PC that is there. -/
theorem execBr_eq (n z p : Bool) (offset : Word) (s : State) :
    execBr n z p offset s = .next (s.setPc (if branchTaken n z p s.cond then s.pc + offset else s.pc)) := by
  unfold execBr
  split <;> rfl

/-- The inversion of `exec`. -/
theorem exec_effect {i : Instr} {s t : State} (h : exec i s = .next t) : s.Effect i t := by
  cases i
  case addRegMode | addImmediateMode | andRegMode | andImmediateMode | not | lea =>
    cases h
    exact .writesReg rfl (.refl s)
  case ld | ldr =>
    cases h
    exact .writesReg rfl (s.memRead_byAccess _)
  case ldi =>
    cases h
    exact .writesReg rfl ((s.memRead_byAccess _).trans (State.memRead_byAccess _ _))
  case st | str =>
    cases h
    exact .stores (by simp [storesMemory]) (.refl s)
  case sti =>
    cases h
    exact .stores (by simp [storesMemory]) (s.memRead_byAccess _)
  case br n z p offset =>
    cases (execBr_eq n z p offset s).symm.trans h
    exact .jumps (by simp [setsPc])
  case jmp | ret =>
    cases h
    exact .jumps (by simp [setsPc])
  case jsr | jsrr =>
    cases h
    exact .calls (by simp [setsPc]) rfl
  case rti | res =>
    cases h
    exact .illegal (by simp)
  case trap => exact .of_execTrap h
  case getc => exact .of_readService (by simp [writesR0]) (execGetc_next h)
  case out => exact .of_writeService (by simp [isTrap]) (execOut_next h)
  case puts => exact .of_writeService (by simp [isTrap]) (execPuts_next h)
  case inp => exact .of_readService (by simp [writesR0]) (execIn_next h)
  case halt => exact .of_haltService (by simp [isTrap]) (execHalt_next h)

end Sys2Proof.Machine
end

section
/-! The frame of the general registers and COND (10_state.md R32), from the shapes of `State.Effect`. -/

namespace Sys2Proof.Machine

open Sys2Proof.Claims

theorem State.getReg_link_of_ne {s : State} {r : RegIdx} (hr : r ≠ 7) : s.link.getReg r = s.getReg r :=
  State.getReg_setReg_of_ne hr

theorem ne_of_mayWrite {i : Instr} {r r' : RegIdx} (h : ¬ mayWrite i r) (h' : mayWrite i r') : r ≠ r' := by
  rintro rfl
  exact h h'

theorem State.Effect.getReg_of_not_mayWrite {i : Instr} {s t : State} {r : RegIdx} (h : s.Effect i t) (hr : ¬ mayWrite i r) :
    t.getReg r = s.getReg r := by
  have hlink {u : State} (hi : isTrap i) (hu : s.link.ByAccess u) : u.getReg r = s.getReg r :=
    (hu.getReg r).trans (getReg_link_of_ne (ne_of_mayWrite hr (mayWrite_seven_of_isTrap hi)))
  cases h with
  | writesReg hw hu => rw [getReg_setReg_of_ne (ne_of_mayWrite hr hw), hu.getReg]
  | stores _ hu => exact hu.getReg r
  | jumps _ => rfl
  | calls _ hw => exact getReg_link_of_ne (ne_of_mayWrite hr hw)
  | illegal _ => rfl
  | trapReturns hi hu => exact hlink hi hu
  | trapReads hi hu =>
    rw [getReg_setReg_of_ne (ne_of_mayWrite hr (mayWrite_zero_of_writesR0 hi)), hlink (isTrap_of_writesR0 hi) hu]
  | trapHalts hi hu => simpa using hlink hi hu
  | trapFaults hi hu => simpa using hlink hi hu

/-- COND has no write port of its own (R31): an instruction that writes no general register keeps it. -/
theorem State.Effect.cond_of_no_mayWrite {i : Instr} {s t : State} (h : s.Effect i t) (hno : ∀ r, ¬ mayWrite i r) :
    t.cond = s.cond := by
  have hnotTrap (hi : isTrap i) : False := hno 7 (mayWrite_seven_of_isTrap hi)
  cases h with
  | writesReg hw _ => exact absurd hw (hno _)
  | stores _ hu => exact hu.cond
  | jumps _ => rfl
  | calls _ hw => exact absurd hw (hno _)
  | illegal _ => rfl
  | trapReturns hi _ => exact (hnotTrap hi).elim
  | trapReads hi _ => exact (hnotTrap (isTrap_of_writesR0 hi)).elim
  | trapHalts hi _ => exact (hnotTrap hi).elim
  | trapFaults hi _ => exact (hnotTrap hi).elim

end Sys2Proof.Machine

namespace Sys2Proof.Proofs

open Sys2Proof.Machine

/-- Settles O46, by the shapes of the state that an instruction can answer. -/
theorem registerFrame : Obligations.RegisterFrame := fun _ _ _ h =>
  ⟨fun _ hr => (exec_effect h).getReg_of_not_mayWrite hr, (exec_effect h).cond_of_no_mayWrite⟩

end Sys2Proof.Proofs
end

section
/-! PC over a step (10_state.md R28): the fetch's increment, what keeps it, and the target of each of the five that overwrite it. -/

namespace Sys2Proof.Machine

open Sys2Proof.Claims

theorem step_of_running {s : State} (h : s.run = .running) : step s = exec (decode s.fetch.1) s.fetch.2 := by
  simp only [step, h]

@[simp] theorem State.getReg_fetch (s : State) (r : RegIdx) : s.fetch.2.getReg r = s.getReg r :=
  State.getReg_congr s.fetch_regs r

theorem State.Effect.pc_of_not_setsPc {i : Instr} {s t : State} (h : s.Effect i t) (hi : ¬ setsPc i) : t.pc = s.pc := by
  cases h with
  | writesReg _ hu => exact hu.pc
  | stores _ hu => exact hu.pc
  | jumps hj => exact absurd hj hi
  | calls hj _ => exact absurd hj hi
  | illegal _ => rfl
  | trapReturns _ hu => exact hu.pc
  | trapReads _ hu => exact hu.pc
  | trapHalts _ hu => exact hu.pc
  | trapFaults _ hu => exact hu.pc

section
variable {s t : State}

theorem exec_br_pc {n z p : Bool} {offset : Word} (h : exec (.br n z p offset) s = .next t) :
    t.pc = if branchTaken n z p s.cond then s.pc + offset else s.pc := by
  cases (execBr_eq n z p offset s).symm.trans h
  rfl

theorem exec_jmp_pc {r : RegIdx} (h : exec (.jmp r) s = .next t) : t.pc = s.getReg r := by
  cases h
  rfl

theorem exec_ret_pc (h : exec .ret s = .next t) : t.pc = s.getReg 7 := by
  cases h
  rfl

theorem exec_jsr_pc {offset : Word} (h : exec (.jsr offset) s = .next t) : t.pc = s.pc + offset := by
  cases h
  rfl

/-- The base register is read after the link (D14): only R7 is then another value than before. -/
theorem exec_jsrr_pc {r : RegIdx} (hr : r ≠ 7) (h : exec (.jsrr r) s = .next t) : t.pc = s.getReg r := by
  cases h
  exact State.getReg_link_of_ne hr

end

end Sys2Proof.Machine

namespace Sys2Proof.Proofs

open Sys2Proof.Machine

/-- Settles O53: the step executes the decoded instruction on the fetched state, and each clause is that instruction's rule there. -/
theorem programCounterRule : Obligations.ProgramCounterRule := by
  intro s t hrun hstep
  rw [step_of_running hrun] at hstep
  refine ⟨s.fetch_pc, (exec_effect hstep).pc_of_not_setsPc, ?br, ?jmp, ?ret, ?jsr, ?jsrr⟩
  case br =>
    intro n z p offset hd
    rw [hd] at hstep
    simpa using exec_br_pc hstep
  case jmp =>
    intro r hd
    rw [hd] at hstep
    simpa using exec_jmp_pc hstep
  case ret =>
    intro hd
    rw [hd] at hstep
    simpa using exec_ret_pc hstep
  case jsr =>
    intro offset hd
    rw [hd] at hstep
    simpa using exec_jsr_pc hstep
  case jsrr =>
    intro r hr hd
    rw [hd] at hstep
    simpa using exec_jsrr_pc hr hstep

end Sys2Proof.Proofs
end

section
/-! The read path and the write path of memory (20_memory.md R42, R44), and that a write at an intercepted address is out of
every read's sight (R48). -/

namespace Sys2Proof.Machine

theorem isDevice_eq_false_iff {a : Word} : isDevice a = false ↔ a ≠ kbsrAddr ∧ a ≠ kbdrAddr := by
  simp [isDevice]

theorem State.memRead_kbsrAddr (s : State) : s.memRead kbsrAddr = s.kbsrRead := rfl

theorem State.memRead_kbdrAddr (s : State) : s.memRead kbdrAddr = s.kbdrRead := rfl

/-- A plain cell answers the Word just written there. -/
theorem State.memRead_memWrite_same {s : State} {a : Word} (ha : isDevice a = false) (hwf : s.mem.wf = true) (v : Word) :
    (s.memWrite a v).memRead a = (v, s.memWrite a v) := by
  rw [memRead_plain ha, cell_memWrite_same hwf]

/-! A read that does not look at the written cell does the same before and after the write. -/

theorem State.hostTryRead_memWrite (s : State) (a v : Word) :
    (s.memWrite a v).hostTryRead = (s.hostTryRead.1, s.hostTryRead.2.memWrite a v) := by
  unfold State.hostTryRead
  rw [State.memWrite_console]
  split <;> rfl

theorem State.kbsrRead_memWrite (s : State) (a v : Word) :
    (s.memWrite a v).kbsrRead = (s.kbsrRead.1, s.kbsrRead.2.memWrite a v) := by
  unfold State.kbsrRead
  rw [State.memWrite_kbReady, State.hostTryRead_memWrite]
  split
  · rfl
  · obtain ⟨_ | c, t⟩ := s.hostTryRead <;> rfl

theorem State.kbdrRead_memWrite (s : State) (a v : Word) :
    (s.memWrite a v).kbdrRead = (s.kbdrRead.1, s.kbdrRead.2.memWrite a v) := rfl

/-- The hidden cell at an intercepted address is what no read answers: every read commutes with the write. -/
theorem State.memRead_memWrite_of_isDevice {s : State} {a : Word} (ha : isDevice a = true) (b v : Word) :
    (s.memWrite a v).memRead b = ((s.memRead b).1, (s.memRead b).2.memWrite a v) := by
  by_cases hsr : b = kbsrAddr
  · rw [hsr]
    exact s.kbsrRead_memWrite a v
  by_cases hdr : b = kbdrAddr
  · rw [hdr]
    exact s.kbdrRead_memWrite a v
  have hb : isDevice b = false := isDevice_eq_false_iff.2 ⟨hsr, hdr⟩
  have hne : b ≠ a := by
    rintro rfl
    simp [ha] at hb
  rw [memRead_plain hb, memRead_plain hb, cell_memWrite_of_ne hne]

end Sys2Proof.Machine

namespace Sys2Proof.Proofs

open Sys2Proof.Machine

/-- Settles O40: the two intercepted addresses by the definition of the read path, every other by the plain-read rules. -/
theorem readPath : Obligations.ReadPath := fun s =>
  ⟨s.memRead_kbsrAddr, s.memRead_kbdrAddr, fun _ hsr hdr =>
    have ha := isDevice_eq_false_iff.2 ⟨hsr, hdr⟩
    ⟨State.memRead_plain ha, State.memRead_memWrite_same ha⟩⟩

/-- Settles O41: the write is an update of the memory field alone, and the array's laws give the cells and the canonical form. -/
theorem writePath : Obligations.WritePath := fun _ a v =>
  ⟨rfl, fun _ => State.cell_memWrite_of_ne, fun hwf => ⟨State.cell_memWrite_same hwf a v, State.wf_memWrite hwf a v⟩⟩

/-- Settles O44: every read commutes with the write, and so answers what it answered before. -/
theorem deviceWritesAreUnseen : Obligations.DeviceWritesAreUnseen := fun _ _ _ _ ha =>
  ⟨by rw [State.memRead_memWrite_of_isDevice ha], rfl, rfl, rfl⟩

end Sys2Proof.Proofs
end

section
/-! A store to the address of the next fetch (20_memory.md R59): there is no instruction cache, so the fetch reads the Word. -/

namespace Sys2Proof.Machine

/-- The next fetch reads the Word that a write puts at PC, when PC is at a plain cell. -/
theorem State.fetch_memWrite_pc {s : State} (hpc : isDevice s.pc = false) (hwf : s.mem.wf = true) (v : Word) :
    (s.memWrite s.pc v).fetch.1 = v :=
  congrArg Prod.fst (memRead_memWrite_same hpc hwf v)

/-- Each of the three stores, when the address it computes is PC's, writes SR there, after STI's read of its pointer. -/
theorem exec_store_at_pc {i : Instr} {s : State} {sr baseR : RegIdx} {offset : Word}
    (h : i = .st sr 0 ∨ (i = .str sr baseR offset ∧ s.getReg baseR + offset = s.pc) ∨
      (i = .sti sr offset ∧ (s.memRead (s.pc + offset)).1 = s.pc)) :
    ∃ u, s.ByAccess u ∧ exec i s = .next (u.memWrite u.pc (s.getReg sr)) := by
  obtain rfl | ⟨rfl, ha⟩ | ⟨rfl, ha⟩ := h
  · exact ⟨s, .refl s, by simp [exec, execSt]⟩
  · exact ⟨s, .refl s, by simp [exec, execStr, ha]⟩
  · have hu := s.memRead_byAccess (s.pc + offset)
    exact ⟨_, hu, by simp [exec, execSti, State.indirect, ha, hu.pc, hu.getReg]⟩

end Sys2Proof.Machine

namespace Sys2Proof.Proofs

open Sys2Proof.Machine

/-- Settles O45: after the fetch each form is a store at PC, which then stays, and the next fetch reads what was written there. -/
theorem storeIsFetchedNext : Obligations.StoreIsFetchedNext := by
  intro s sr baseR offset hrun hwf hpc hnext hstore
  have hword : s.fetch.1 = s.cell s.pc := by rw [State.fetch_plain hpc]
  rw [← hword] at hstore
  obtain ⟨u, hu, hexec⟩ := exec_store_at_pc (s := s.fetch.2) (by simpa using hstore)
  have hupc : u.pc = s.pc + 1 := hu.pc
  refine ⟨_, (step_of_running hrun).trans hexec, ?run, hupc, ?fetch⟩
  case run => simp [hu.run, hrun]
  case fetch =>
    rw [State.fetch_memWrite_pc (by rwa [hupc]) (by rwa [hu.mem, State.fetch_mem]), State.getReg_fetch]

end Sys2Proof.Proofs
end

section
/-! The frame of memory (20_memory.md R55), from the shapes of `State.Effect` and the three stores' own addresses. -/

namespace Sys2Proof.Machine

open Sys2Proof.Claims

theorem State.Effect.cell_of_not_storesMemory {i : Instr} {s t : State} (h : s.Effect i t) (hi : ¬ storesMemory i) (a : Word) :
    t.cell a = s.cell a := by
  cases h with
  | writesReg _ hu => exact hu.cell a
  | stores hs _ => exact absurd hs hi
  | jumps _ => rfl
  | calls _ _ => rfl
  | illegal _ => rfl
  | trapReturns _ hu => exact hu.cell a
  | trapReads _ hu => exact hu.cell a
  | trapHalts _ hu => exact hu.cell a
  | trapFaults _ hu => exact hu.cell a

section
variable {s t : State} {a : Word}

theorem cell_of_exec_st {sr : RegIdx} {offset : Word} (h : exec (.st sr offset) s = .next t) (ha : a ≠ s.pcRelative offset) :
    t.cell a = s.cell a := by
  cases h
  exact State.cell_memWrite_of_ne ha

theorem cell_of_exec_str {sr baseR : RegIdx} {offset : Word} (h : exec (.str sr baseR offset) s = .next t)
    (ha : a ≠ s.baseOffset baseR offset) : t.cell a = s.cell a := by
  cases h
  exact State.cell_memWrite_of_ne ha

/-- The read of the pointer leaves every cell too. -/
theorem cell_of_exec_sti {sr : RegIdx} {offset : Word} (h : exec (.sti sr offset) s = .next t)
    (ha : a ≠ (s.indirect offset).1) : t.cell a = s.cell a := by
  cases h
  exact (State.cell_memWrite_of_ne ha).trans ((s.memRead_byAccess _).cell a)

end

end Sys2Proof.Machine

namespace Sys2Proof.Proofs

open Sys2Proof.Machine

/-- Settles O48: a form that stores nothing by its shape, and each store by the address it writes. -/
theorem memoryFrame : Obligations.MemoryFrame := by
  intro i s t sr baseR offset a h
  refine ⟨fun hi => (exec_effect h).cell_of_not_storesMemory hi a, ?st, ?str, ?sti⟩
  all_goals rintro rfl ha
  case st => exact cell_of_exec_st h ha
  case str => exact cell_of_exec_str h ha
  case sti => exact cell_of_exec_sti h ha

end Sys2Proof.Proofs
end

section
/-! How an instruction can end (20_memory.md R62, 44_trap_system.md R194): a next state, or one of the two waits of the console. -/

namespace Sys2Proof.Machine

open Sys2Proof.Claims

/-- What `i` can answer: a next state, or a stop, each stop with the instructions it belongs to. No refusal is among them. -/
inductive CompletesOrWaits (i : Instr) : Result → Prop where
  | completes (t : State) : CompletesOrWaits i (.next t)
  | readBlocked : writesR0 i → CompletesOrWaits i (.fault .hostReadBlocked)
  | putsUnending : i = .puts ∨ i = .trap 0x22 → CompletesOrWaits i (.fault .putsUnending)

namespace CompletesOrWaits

variable {i : Instr}

theorem of_serviceGetc (hi : writesR0 i) (s : State) : CompletesOrWaits i (serviceGetc s) := by
  unfold serviceGetc
  split
  · exact .completes _
  · exact .completes _
  · exact .readBlocked hi

theorem of_serviceOut (s : State) : CompletesOrWaits i (serviceOut s) := by
  unfold serviceOut
  split <;> exact .completes _

theorem of_putsLoop (hi : i = .puts ∨ i = .trap 0x22) (fuel : Nat) (p : Word) (s : State) :
    CompletesOrWaits i (putsLoop fuel p s) := by
  induction fuel generalizing p s with
  | zero => exact .putsUnending hi
  | succ fuel ih =>
    unfold putsLoop
    split
    · exact .completes _
    · split
      · exact ih _ _
      · exact .completes _

theorem of_serviceIn (hi : writesR0 i) (s : State) : CompletesOrWaits i (serviceIn s) := by
  unfold serviceIn
  split
  · exact .completes _
  · split
    · exact .completes _
    · exact .readBlocked hi
    · split <;> exact .completes _

theorem of_serviceHalt (s : State) : CompletesOrWaits i (serviceHalt s) := by
  unfold serviceHalt
  split <;> exact .completes _

theorem of_execTrap (vector : Byte) (s : State) : CompletesOrWaits (.trap vector) (execTrap vector s) := by
  obtain ⟨rfl, e⟩ | ⟨rfl, e⟩ | ⟨rfl, e⟩ | ⟨rfl, e⟩ | ⟨rfl, e⟩ | ⟨-, e⟩ := execTrap_cases vector s <;> rw [e]
  · exact of_serviceGetc (by simp [writesR0]) _
  · exact of_serviceOut _
  · exact of_putsLoop (.inr rfl) _ _ _
  · exact of_serviceIn (by simp [writesR0]) _
  · exact of_serviceHalt _
  · exact .completes _

end CompletesOrWaits

theorem exec_completesOrWaits (i : Instr) (s : State) : CompletesOrWaits i (exec i s) := by
  cases i
  case br n z p offset =>
    rw [exec, execBr_eq]
    exact .completes _
  case trap vector => exact .of_execTrap vector s
  case getc => exact .of_serviceGetc (by simp [writesR0]) _
  case out => exact .of_serviceOut _
  case puts => exact .of_putsLoop (.inl rfl) _ _ _
  case inp => exact .of_serviceIn (by simp [writesR0]) _
  case halt => exact .of_serviceHalt _
  all_goals exact .completes _

/-! A decoded TRAP has an unserved vector: the served ones were given their services' constructors (log 6). -/

theorem serviceOf_ne_some_trap (vector v : Byte) : serviceOf vector ≠ some (.trap v) := by
  unfold serviceOf
  repeat' split
  all_goals simp

theorem serviceOf_eq_none_of_selectService {i : Instr} {v : Byte} (h : selectService i = .trap v) : serviceOf v = none := by
  cases i
  case trap vector =>
    cases hs : serviceOf vector with
    | none =>
      simp only [selectService, hs, Option.getD_none, Instr.trap.injEq] at h
      rwa [← h]
    | some service =>
      simp only [selectService, hs, Option.getD_some] at h
      exact absurd (h ▸ hs) (serviceOf_ne_some_trap vector v)
  all_goals cases h

theorem decode_ne_trap_of_served {w : Word} {v : Byte} (hv : serviceOf v ≠ none) : decode w ≠ .trap v :=
  fun h => hv (serviceOf_eq_none_of_selectService h)

theorem decode_eq_getc_or_inp_of_writesR0 {w : Word} (h : writesR0 (decode w)) : decode w = .getc ∨ decode w = .inp := by
  obtain hg | hi | ht | ht := h
  · exact .inl hg
  · exact .inr hi
  · exact absurd ht (decode_ne_trap_of_served (by decide))
  · exact absurd ht (decode_ne_trap_of_served (by decide))

theorem step_of_halted {s : State} (h : s.run = .halted) : step s = .next s := by
  simp only [step, h]

end Sys2Proof.Machine

namespace Sys2Proof.Proofs

open Sys2Proof.Machine

/-- Settles O52: a halted machine's step completes; a running one's is a decoded instruction's, which completes or waits. -/
theorem onlyConsoleWaitsStop : Obligations.OnlyConsoleWaitsStop := by
  intro s
  cases hrun : s.run with
  | halted => simp [step_of_halted hrun]
  | running =>
    have hends := exec_completesOrWaits (decode s.fetch.1) s.fetch.2
    rw [step_of_running hrun]
    refine ⟨fun r h => ?_, fun f h => ⟨rfl, ?_⟩⟩ <;> rw [h] at hends <;> cases hends
    case readBlocked hi => exact .inl ⟨rfl, decode_eq_getc_or_inp_of_writesR0 hi⟩
    case putsUnending hi => exact .inr ⟨rfl, hi.resolve_right (decode_ne_trap_of_served (by decide))⟩

end Sys2Proof.Proofs
end

section
/-! The console's two streams over a step (20_memory.md R62): the output only grows, the listed input is only used up. -/

namespace Sys2Proof.Machine

/-- `d` is `c` some accesses later: more may be written, and answers may be drawn from the front. -/
def Console.Forward (c d : Console) : Prop := c.output <+: d.output ∧ d.input <:+ c.input

theorem Console.Forward.refl (c : Console) : c.Forward c := ⟨List.prefix_refl _, List.suffix_refl _⟩

theorem Console.Forward.trans {c d e : Console} (h : c.Forward d) (h' : d.Forward e) : c.Forward e :=
  ⟨h.1.trans h'.1, h'.2.trans h.2⟩

theorem State.ByAccess.console_forward {s t : State} (h : s.ByAccess t) : s.console.Forward t.console := ⟨h.output, h.input⟩

/-- The fetch touches the console only by its read. -/
theorem State.fetch_console_forward (s : State) : s.console.Forward s.fetch.2.console :=
  (s.memRead_byAccess s.pc).console_forward

theorem State.Effect.console_forward {i : Instr} {s t : State} (h : s.Effect i t) : s.console.Forward t.console := by
  cases h with
  | writesReg _ hu => exact hu.console_forward
  | stores _ hu => exact hu.console_forward
  | jumps _ => exact .refl _
  | calls _ _ => exact .refl _
  | illegal _ => exact .refl _
  | trapReturns _ hu => exact hu.console_forward
  | trapReads _ hu => exact hu.console_forward
  | trapHalts _ hu => exact hu.console_forward
  | trapFaults _ hu => exact hu.console_forward

end Sys2Proof.Machine

namespace Sys2Proof.Proofs

open Sys2Proof.Machine

/-- Settles O57: halted, nothing moves; running, the fetch and then the instruction move the streams forward. -/
theorem streamsOnlyGoForward : Obligations.StreamsOnlyGoForward := by
  intro s t hstep
  cases hrun : s.run with
  | halted =>
    cases (step_of_halted hrun).symm.trans hstep
    exact Console.Forward.refl _
  | running =>
    rw [step_of_running hrun] at hstep
    exact s.fetch_console_forward.trans (exec_effect hstep).console_forward

end Sys2Proof.Proofs
end

section
/-! The decoder sees exactly the examined bits (40_decoder.md R125): clearing the ignored bits keeps the operation, and the
operation gives the examined bits back. The opcode field, and the fields of a masked Word. -/

namespace Sys2Proof.Machine

open Sys2Proof.Claims

/-! ### Fields and masks -/

/-- The opcode field against the four bits that `decodeOperation` matches on. -/
theorem opcode_eq_iff (w : Word) (op : BitVec 4) :
    w.extractLsb' 12 4 = op ↔ w[15] = op[3] ∧ w[14] = op[2] ∧ w[13] = op[1] ∧ w[12] = op[0] := by
  constructor
  · rintro rfl
    simp [BitVec.getLsbD_eq_getElem]
  · rintro ⟨h3, h2, h1, h0⟩
    ext k hk
    interval_cases k <;> simp [BitVec.getLsbD_eq_getElem, *]

/-- A field that the mask covers is not changed by masking. -/
theorem extractLsb'_and_of_allOnes {w m : Word} {lo n : Nat} (h : m.extractLsb' lo n = BitVec.allOnes n) :
    (w &&& m).extractLsb' lo n = w.extractLsb' lo n := by
  rw [BitVec.extractLsb'_and, h, BitVec.and_allOnes]

/-- A field put back in its place is the Word under the field's mask. -/
theorem place_extractLsb' (w : Word) (lo n : Nat) :
    place (w.extractLsb' lo n) lo = w &&& place (BitVec.allOnes n) lo := by
  ext k hk
  by_cases hlo : k < lo
  · simp [place, hlo]
  · simp [place, hlo, Nat.add_sub_cancel' (Nat.le_of_not_lt hlo), BitVec.getLsbD_eq_getElem hk, Bool.and_comm]

theorem place_ofBool_getElem (w : Word) (k : Nat) (hk : k < 16) :
    place (BitVec.ofBool w[k]) k = w &&& place 1#1 k := by
  have hbit : BitVec.ofBool w[k] = w.extractLsb' k 1 := by
    ext i hi
    simp [BitVec.getLsbD_eq_getElem, hk, Nat.lt_one_iff.mp hi]
  rw [hbit, place_extractLsb']
  rfl

/-- A field is the low part of its sign extension. -/
theorem setWidth_sext {n : Nat} (hn : n ≤ 16) (v : BitVec n) : (sext v).setWidth n = v := by
  rw [sext_eq_signExtend]
  ext k hk
  simp [BitVec.getElem_signExtend, hk, Nat.lt_of_lt_of_le hk hn]

/-- Fixed bits `c` and fields under the mask `f` make the Word under `m`, when `c` is what the Word has in the rest of `m`. -/
theorem or_and_eq_and {w c f m : Word} (hfixed : w &&& (m &&& ~~~f) = c) (hsub : f ||| m = m) :
    c ||| (w &&& f) = w &&& m := by
  rw [← hfixed, ← BitVec.and_or_distrib_left, ← hsub]
  congr 1
  ext k hk
  cases hf : f[k] <;> simp [hf]

/-! The bits that are fixed by the arm of the decoder: the opcode, and with it bit 5 (ADD, AND) or bit 11 (JSR, JSRR). -/

theorem and_opcodeBits (w : Word) :
    w &&& 0xF000#16 = place (BitVec.ofBool w[15]) 15 ||| place (BitVec.ofBool w[14]) 14 ||| place (BitVec.ofBool w[13]) 13 |||
      place (BitVec.ofBool w[12]) 12 := by
  simp only [place_ofBool_getElem, ← BitVec.and_or_distrib_left]
  rfl

theorem and_opcodeBits_bit5 (w : Word) : w &&& 0xF020#16 = (w &&& 0xF000#16) ||| place (BitVec.ofBool w[5]) 5 := by
  simp only [place_ofBool_getElem, ← BitVec.and_or_distrib_left]
  rfl

theorem and_opcodeBits_bit11 (w : Word) : w &&& 0xF800#16 = (w &&& 0xF000#16) ||| place (BitVec.ofBool w[11]) 11 := by
  simp only [place_ofBool_getElem, ← BitVec.and_or_distrib_left]
  rfl

/-! ### The two directions -/

/-- The decoder does not look at the ignored bits: in each arm the mask keeps the bits matched on and every field read. -/
theorem decodeOperation_and_examinedBits (w : Word) : decodeOperation (w &&& examinedBits w) = decodeOperation w := by
  fun_cases decodeOperation w
  all_goals
    simp (disch := decide) [decodeOperation, examinedBits, opcode_eq_iff, fieldDr, fieldBase, fieldSr2, fieldImm5, fieldOffset6,
      fieldOffset9, fieldOffset11, fieldVector, extractLsb'_and_of_allOnes, *]
  case case6 hret => exact hret
  case case7 hjmp => exact hjmp

/-- The encoder's word with every ignored bit 0: the encoder writes 1 in the low six bits of NOT (30_encoding.md R82). -/
def bareEncode : Instr → Word
  | .not dr sr => 0x9000 ||| place dr 9 ||| place sr 6
  | i => encode i

/-- RET is JMP's pattern with base register 7 (30_encoding.md R76). -/
theorem bareEncode_ret {r : RegIdx} (hr : r = 7) : bareEncode .ret = 0xC000 ||| place r 6 := by
  subst hr
  rfl

/-- The operation determines the examined bits: each arm's fields, put back beside the bits the arm fixes, cover its mask. -/
theorem bareEncode_decodeOperation (w : Word) : bareEncode (decodeOperation w) = w &&& examinedBits w := by
  fun_cases decodeOperation w
  -- RTI and RES: nothing but the opcode is examined
  case case19 | case20 => simp [bareEncode, encode, examinedBits, opcode_eq_iff, and_opcodeBits, place, *]
  case' case6 hret => rw [bareEncode_ret hret]
  all_goals
    simp (disch := decide) only [bareEncode, encode, fieldDr, fieldBase, fieldSr2, fieldImm5, fieldOffset6, fieldOffset9,
      fieldOffset11, fieldVector, setWidth_sext, place_extractLsb', place_ofBool_getElem, BitVec.or_assoc,
      ← BitVec.and_or_distrib_left]
    apply or_and_eq_and
  all_goals simp [examinedBits, opcode_eq_iff, and_opcodeBits, and_opcodeBits_bit5, and_opcodeBits_bit11, place, *]

end Sys2Proof.Machine

namespace Sys2Proof.Proofs

open Sys2Proof.Machine

/-- Settles O4: equal operations give equal examined bits, and the examined bits alone decode to the word's operation. -/
theorem decoderSeesExactlyTheFields : Obligations.DecoderSeesExactlyTheFields := by
  intro v w
  constructor
  · intro hop
    rw [← bareEncode_decodeOperation v, hop, bareEncode_decodeOperation]
  · intro hbits
    rw [← decodeOperation_and_examinedBits v, hbits, decodeOperation_and_examinedBits]

end Sys2Proof.Proofs
end

section
/-! How a run can end (10_state.md R35; 60_exceptions.md R221, R222): only a TRAP, RTI or RES halts a running machine, and what
the run's outcome then says. -/

namespace Sys2Proof.Safety

open Sys2Proof.Machine

theorem Sound.fault_eq_none_of_running {s : State} (h : Sound s) (hrun : s.run = .running) : s.fault = none := by
  obtain ⟨-, hfault⟩ := h
  by_contra hne
  simp [hfault hne] at hrun

end Sys2Proof.Safety

namespace Sys2Proof.Machine

open Sys2Proof.Claims

theorem State.outcome_raise (s : State) (reason : FaultReason) :
    (s.raise reason).outcome = some (.fault { pc := s.fetchAddr, reason := reason }) := rfl

theorem State.outcome_halt {s : State} (h : s.fault = none) : s.halt.outcome = some .halted := by
  simp [State.outcome, h]

theorem execTrap_of_unserved {vector : Byte} (h : serviceOf vector = none) (s : State) :
    execTrap vector s = .next s.link.raiseIllegal := by
  obtain ⟨rfl, -⟩ | ⟨rfl, -⟩ | ⟨rfl, -⟩ | ⟨rfl, -⟩ | ⟨rfl, -⟩ | ⟨-, e⟩ := execTrap_cases vector s
  case inr.inr.inr.inr.inr => exact e
  all_goals cases h

section
variable {s t u : State} {i : Instr}

/-- Every other shape keeps the run state. -/
theorem State.Effect.isTrap_or_illegal_of_halts (h : s.Effect i t) (hrun : s.run = .running) (ht : t.run = .halted) :
    isTrap i ∨ i = .rti ∨ i = .res := by
  have hkept {α : Prop} (e : t.run = s.run) : α := by simp [ht, hrun] at e
  cases h with
  | writesReg _ hu => exact hkept hu.run
  | stores _ hu => exact hkept hu.run
  | jumps _ => exact hkept rfl
  | calls _ _ => exact hkept rfl
  | illegal hi => exact .inr hi
  | trapReturns hi _ => exact .inl hi
  | trapReads hi _ => exact .inl (isTrap_of_writesR0 hi)
  | trapHalts hi _ => exact .inl hi
  | trapFaults hi _ => exact .inl hi

/-- A service that halts although returning does not (GETC, OUT, PUTS, IN) was failed by the console. -/
theorem outcome_of_service_halts (hrun : s.run = .running) (ht : t.run = .halted) (hu : s.link.ByAccess u)
    (h : t.run = u.run ∨ t = u.raise .hostIOFailure) :
    t.outcome = some (.fault { pc := s.fetchAddr, reason := .hostIOFailure }) := by
  obtain hkept | rfl := h
  · have hrun' : u.run = .running := hu.run.trans hrun
    simp [ht, hrun'] at hkept
  · rw [State.outcome_raise, hu.fetchAddr, State.link_fetchAddr]

theorem outcome_of_readService (hrun : s.run = .running) (ht : t.run = .halted)
    (h : ∃ u, s.link.ByAccess u ∧ ((∃ c, t = u.setReg 0 (zext8 c)) ∨ t = u.raise .hostIOFailure)) :
    t.outcome = some (.fault { pc := s.fetchAddr, reason := .hostIOFailure }) := by
  obtain ⟨u, hu, e⟩ := h
  exact outcome_of_service_halts hrun ht hu (e.imp_left fun ⟨_, e⟩ => e ▸ rfl)

theorem outcome_of_writeService (hrun : s.run = .running) (ht : t.run = .halted)
    (h : ∃ u, s.link.ByAccess u ∧ (t = u ∨ t = u.raise .hostIOFailure)) :
    t.outcome = some (.fault { pc := s.fetchAddr, reason := .hostIOFailure }) := by
  obtain ⟨u, hu, e⟩ := h
  exact outcome_of_service_halts hrun ht hu (e.imp_left (congrArg State.run))

theorem outcome_of_execHalt (hfault : s.fault = none) (h : execHalt s = .next t) :
    t.outcome = some .halted ∨ t.outcome = some (.fault { pc := s.fetchAddr, reason := .hostIOFailure }) := by
  obtain ⟨u, hu, rfl | rfl⟩ := execHalt_next h
  · exact .inl (State.outcome_halt (hu.fault.trans hfault))
  · exact .inr (by rw [State.outcome_raise, hu.fetchAddr, State.link_fetchAddr])

/-- The outcome of a run that `i` ends, for an `i` as it is decoded: its TRAPs are the unserved ones. -/
theorem exec_outcome_of_halts (h : exec i s = .next t) (hrun : s.run = .running) (hfault : s.fault = none)
    (hunserved : ∀ v, i = .trap v → serviceOf v = none) (ht : t.run = .halted) :
    (t.outcome = some .halted ∧ i = .halt) ∨
      (t.outcome = some (.fault { pc := s.fetchAddr, reason := .illegalInstruction s.fetchWord }) ∧ isIllegal i) ∨
      (t.outcome = some (.fault { pc := s.fetchAddr, reason := .hostIOFailure }) ∧
        (i = .getc ∨ i = .out ∨ i = .puts ∨ i = .inp ∨ i = .halt)) := by
  obtain (rfl | rfl | rfl | rfl | rfl | ⟨v, rfl⟩) | rfl | rfl := (exec_effect h).isTrap_or_illegal_of_halts hrun ht
  · exact .inr (.inr ⟨outcome_of_readService hrun ht (execGetc_next h), by simp⟩)
  · exact .inr (.inr ⟨outcome_of_writeService hrun ht (execOut_next h), by simp⟩)
  · exact .inr (.inr ⟨outcome_of_writeService hrun ht (execPuts_next h), by simp⟩)
  · exact .inr (.inr ⟨outcome_of_readService hrun ht (execIn_next h), by simp⟩)
  · obtain e | e := outcome_of_execHalt hfault h
    · exact .inl ⟨e, rfl⟩
    · exact .inr (.inr ⟨e, by simp⟩)
  · have hv := hunserved v rfl
    cases (execTrap_of_unserved hv s).symm.trans h
    exact .inr (.inl ⟨rfl, by simp [isIllegal, hv]⟩)
  · cases h
    exact .inr (.inl ⟨rfl, by simp [isIllegal]⟩)
  · cases h
    exact .inr (.inl ⟨rfl, by simp [isIllegal]⟩)

end

end Sys2Proof.Machine

namespace Sys2Proof.Proofs

open Sys2Proof.Machine

/-- Settles O55: the step executes the decoded instruction on the fetched state, which keeps the instruction's address and word. -/
theorem runEndsOnlyByHaltOrFault : Obligations.RunEndsOnlyByHaltOrFault := by
  intro s t hsound hrun hstep ht
  rw [step_of_running hrun] at hstep
  exact exec_outcome_of_halts hstep (by simpa using hrun) (by simpa using hsound.fault_eq_none_of_running hrun)
    (fun _ => serviceOf_eq_none_of_selectService) ht

end Sys2Proof.Proofs
end

section
/-! The operate instructions (41_step_alu.md R133 to R137): each is one write of the register port, whose two updates, of the
register and of COND, are `State.setReg`'s definition. -/

namespace Sys2Proof.Proofs

/-- Settles O15: both forms, by the definition of the port. -/
theorem addResult : Obligations.AddResult := fun _ _ _ _ _ => ⟨rfl, rfl⟩

/-- Settles O16: both forms, by the definition of the port. -/
theorem andResult : Obligations.AndResult := fun _ _ _ _ _ => ⟨rfl, rfl⟩

/-- Settles O17: by the definition of the port. -/
theorem notResult : Obligations.NotResult := fun _ _ _ => rfl

end Sys2Proof.Proofs
end

section
/-! What a step runs (41_step_alu.md R130): the fetch in terms of its read, and that every decoded instruction is well-formed. -/

namespace Sys2Proof.Machine

/-! ### Every decoded instruction is well-formed -/

theorem fitsSigned_sext {n : Nat} (hn : n ≤ 16) (v : BitVec n) : fitsSigned n (sext v) = true := by
  simp [fitsSigned, setWidth_sext hn]

/-- A TRAP becomes its service, which has no operands, or stays and is then unserved. -/
theorem wellFormed_selectService_trap (v : Byte) : (selectService (.trap v)).wellFormed = true := by
  rw [selectService]
  fun_cases serviceOf v
  case case6 h20 h21 h22 h23 h25 => simpa [Instr.wellFormed, servedVectors] using ⟨h20, h21, h22, h23, h25⟩
  all_goals rfl

/-- The decoder's arms with an operand to check: immediates and offsets are sign-extended fields, JMP's base is not 7, and a TRAP
is settled by its service rows. -/
theorem wellFormed_decode (w : Word) : (decode w).wellFormed = true := by
  unfold decode
  fun_cases decodeOperation w
  -- the immediates of ADD and AND, and the offsets of BR, JSR, the loads, LEA and the stores
  case case1 | case3 | case5 | case8 | case10 | case11 | case12 | case13 | case15 | case16 | case17 =>
    exact fitsSigned_sext (by decide) _
  case case7 hbase => simpa [selectService, Instr.wellFormed] using hbase
  case case18 => exact wellFormed_selectService_trap _
  all_goals rfl

/-! ### The fetch -/

theorem State.fetch_eq_of_memRead {s u : State} {w : Word} (h : s.memRead s.pc = (w, u)) :
    s.fetch = (w, { u with pc := s.pc + 1, fetchAddr := s.pc, fetchWord := w }) := by
  simp only [State.fetch, h]

end Sys2Proof.Machine

namespace Sys2Proof.Proofs

open Sys2Proof.Machine

/-- Settles O51: the step executes what the fetch answers, and the fetch answers what its read does. -/
theorem stepRunsDecodedInstruction : Obligations.StepRunsDecodedInstruction := by
  rintro s u instr _ hrun hread rfl
  refine ⟨wellFormed_decode instr, ?_⟩
  rw [step_of_running hrun, State.fetch_eq_of_memRead hread]

end Sys2Proof.Proofs
end

section
/-! The jumps without a link (42_control.md R150 to R153): each is one write of PC, BR choosing what is written by COND. -/

namespace Sys2Proof.Machine

theorem branchTaken_iff (n z p : Bool) (c : CondFlag) :
    branchTaken n z p c = true ↔ (n = true ∧ c = .n) ∨ (z = true ∧ c = .z) ∨ (p = true ∧ c = .p) := by
  cases c <;> simp [branchTaken]

end Sys2Proof.Machine

namespace Sys2Proof.Proofs

open Sys2Proof.Machine

/-- Settles O18: BR is one write of PC, and its branch test is the rule's condition. -/
theorem branchResult : Obligations.BranchResult := by
  intro s n z p offset
  rw [exec, execBr_eq, State.setPc, if_congr (branchTaken_iff n z p s.cond) rfl rfl]

/-- Settles O19: each is one write of PC, by the definition of the port. -/
theorem jumpResult : Obligations.JumpResult := fun _ _ => ⟨rfl, rfl⟩

end Sys2Proof.Proofs
end

section
/-! Loads, LEA and stores (43_load_store.md R170 to R176): a read on the way touches the latch and the console only, so what is
then written is written over the first state's registers or memory. -/

namespace Sys2Proof.Machine

theorem State.byAccess_of_memRead {s u : State} {a w : Word} (h : s.memRead a = (w, u)) : s.ByAccess u := by
  simpa only [h] using s.memRead_byAccess a

/-- The shared body of the loads: one read, then the register port, over registers that the read left alone. -/
theorem State.loadReg_eq (s : State) (dr : RegIdx) (a : Word) :
    s.loadReg dr a =
      { (s.memRead a).2 with
        regs := s.regs.set dr.toNat (s.memRead a).1 dr.isLt
        cond := flags (s.memRead a).1 } := by
  rw [State.loadReg, State.setReg, (s.memRead_byAccess a).regs]

theorem execLdi_of_memRead {s u : State} {offset p : Word} (h : s.memRead (s.pc + offset) = (p, u)) (dr : RegIdx) :
    execLdi dr offset s = .next (u.loadReg dr p) := by
  simp only [execLdi, State.indirect, State.pcRelative_eq, h]

theorem execSti_of_memRead {s u : State} {offset p : Word} (h : s.memRead (s.pc + offset) = (p, u)) (sr : RegIdx) :
    execSti sr offset s = .next (u.memWrite p (u.getReg sr)) := by
  simp only [execSti, State.indirect, State.pcRelative_eq, h]

end Sys2Proof.Machine

namespace Sys2Proof.Proofs

open Sys2Proof.Machine

/-- Settles O22: both are the shared body of the loads, at the two addresses. -/
theorem loadResult : Obligations.LoadResult := by
  intro s dr baseR offset
  constructor
  · rw [exec, execLd, State.loadReg_eq, State.pcRelative_eq]
  · rw [exec, execLdr, State.loadReg_eq, State.baseOffset_eq]

/-- Settles O23: the value's read is the shared body of the loads, over registers that the pointer's read left alone. -/
theorem loadIndirectResult : Obligations.LoadIndirectResult := by
  intro s u v dr offset p w hpointer hvalue
  have hregs : u.regs = s.regs := (State.byAccess_of_memRead hpointer).regs
  rw [exec, execLdi_of_memRead hpointer, State.loadReg_eq, hvalue, hregs]

/-- Settles O24: the register port with the address itself, by the definition of the port. -/
theorem leaResult : Obligations.LeaResult := fun _ _ _ => rfl

/-- Settles O25: each is one write of memory, by the definition of the write path. -/
theorem storeResult : Obligations.StoreResult := fun _ _ _ _ => ⟨rfl, rfl⟩

/-- Settles O26: the pointer's read leaves SR and memory as they are, so both are the first state's. -/
theorem storeIndirectResult : Obligations.StoreIndirectResult := by
  intro s u sr offset p hpointer
  have haccess : s.ByAccess u := State.byAccess_of_memRead hpointer
  rw [exec, execSti_of_memRead hpointer, State.memWrite, haccess.mem, haccess.getReg]

end Sys2Proof.Proofs
end

section
/-! Runs of the machine (60_exceptions.md R229): a run unfolds one completed step at a time, and a halted machine's step is the
state itself. -/

namespace Sys2Proof.Machine

theorem run_succ_of_step_next {s t : State} (h : step s = .next t) (k : Nat) :
    Host.Core.run core (k + 1) s = Host.Core.run core k t := by
  have hcore : core.step s = .next t := h
  simp only [Host.Core.run, hcore]

end Sys2Proof.Machine

namespace Sys2Proof.Proofs

open Sys2Proof.Machine

/-- Settles O54: by induction on the number of steps, each of which answers the halted state itself. -/
theorem haltedStaysHalted : Obligations.HaltedStaysHalted := by
  intro k s hrun
  induction k with
  | zero => rfl
  | succ k ih => rw [run_succ_of_step_next (step_of_halted hrun), ih]

end Sys2Proof.Proofs
end

section
/-! The image loader (70_reset_and_hazards.md R251 to R254): the words of an image, the images that are refused, and the cells
that the loader's stores leave. -/

namespace Sys2Proof.Machine

/-! ### The words of an image -/

theorem toNat_bigEndianWord (hi lo : Byte) : (bigEndianWord hi lo).toNat = hi.toNat * 256 + lo.toNat := by
  have happend : bigEndianWord hi lo = hi ++ lo := by
    rw [bigEndianWord, BitVec.append_def, BitVec.shiftLeftZeroExtend_eq, BitVec.setWidth'_eq]
  rw [happend, BitVec.toNat_append, ← Nat.shiftLeft_add_eq_or_of_lt lo.isLt, Nat.shiftLeft_eq]

theorem imageWords_cons_cons_eq_some_iff {hi lo : Byte} {rest : List Byte} {ws : List Word} :
    imageWords (hi :: lo :: rest) = some ws ↔ ∃ tail, imageWords rest = some tail ∧ bigEndianWord hi lo :: tail = ws := by
  rw [imageWords, Option.map_eq_some_iff]

theorem imageWords_eq_none_iff (bytes : List Byte) : imageWords bytes = none ↔ bytes.length % 2 = 1 := by
  induction bytes using imageWords.induct with
  | case1 => simp [imageWords]
  | case2 => simp [imageWords]
  | case3 hi lo rest ih =>
    simp only [imageWords, Option.map_eq_none_iff, ih, List.length_cons]
    omega

theorem length_of_imageWords {bytes : List Byte} {ws : List Word} (h : imageWords bytes = some ws) :
    ws.length * 2 = bytes.length := by
  induction bytes using imageWords.induct generalizing ws with
  | case1 =>
    cases h
    rfl
  | case2 => cases h
  | case3 hi lo rest ih =>
    obtain ⟨tail, htail, rfl⟩ := imageWords_cons_cons_eq_some_iff.1 h
    simp only [List.length_cons, ← ih htail]
    omega

theorem getElem?_of_imageWords {bytes : List Byte} {ws : List Word} {k : Nat} {hi lo : Byte} (h : imageWords bytes = some ws)
    (hhi : bytes[2 * k]? = some hi) (hlo : bytes[2 * k + 1]? = some lo) : ws[k]? = some (bigEndianWord hi lo) := by
  induction bytes using imageWords.induct generalizing ws k with
  | case1 => cases hhi
  | case2 => cases h
  | case3 hi' lo' rest ih =>
    obtain ⟨tail, htail, rfl⟩ := imageWords_cons_cons_eq_some_iff.1 h
    cases k with
    | zero =>
      cases hhi
      cases hlo
      rfl
    | succ k =>
      rw [List.getElem?_cons_succ]
      exact ih htail hhi hlo

/-- The two outcomes of loading, each with the lengths that have it (70_reset_and_hazards.md R252, R253). -/
theorem State.loadImage_cases (s : State) (bytes : List Byte) :
    ((bytes.length % 2 = 0 ∧ 4 ≤ bytes.length) ∧ ∃ t, s.loadImage bytes = .ok t) ∨
      (¬ (bytes.length % 2 = 0 ∧ 4 ≤ bytes.length) ∧ s.loadImage bytes = .error .malformedImage) := by
  unfold loadImage
  split
  case h_1 origin w ws h =>
    have hlength := length_of_imageWords h
    simp only [List.length_cons] at hlength
    exact .inl ⟨by omega, _, rfl⟩
  case h_2 origin h =>
    have hlength : 1 * 2 = bytes.length := length_of_imageWords h
    exact .inr ⟨by omega, rfl⟩
  case h_3 h =>
    have hlength : 0 * 2 = bytes.length := length_of_imageWords h
    exact .inr ⟨by omega, rfl⟩
  case h_4 h =>
    have hodd := (imageWords_eq_none_iff bytes).1 h
    exact .inr ⟨by omega, rfl⟩

theorem State.loadImage_of_imageWords {bytes : List Byte} {origin : Word} {ws : List Word}
    (h : imageWords bytes = some (origin :: ws)) (hws : ws ≠ []) (s : State) :
    s.loadImage bytes = .ok (s.storeWords origin ws) := by
  cases ws with
  | nil => exact absurd rfl hws
  | cons w ws => simp only [loadImage, h]

/-! ### The loader's stores -/

theorem State.storeWords_with_mem (s : State) (a : Word) (ws : List Word) : { s.storeWords a ws with mem := s.mem } = s := by
  have hmem : ∃ m, s.storeWords a ws = { s with mem := m } := by
    induction ws generalizing s a with
    | nil => exact ⟨s.mem, rfl⟩
    | cons w ws ih => exact ih (s.memWrite a w) (a + 1)
  obtain ⟨m, hm⟩ := hmem
  rw [hm]

/-- The address of a word, counted from the next word's origin. -/
theorem add_one_add_ofNat (a : Word) (k : Nat) : a + 1 + BitVec.ofNat 16 k = a + BitVec.ofNat 16 (k + 1) := by
  rw [BitVec.ofNat_add, BitVec.add_comm (BitVec.ofNat 16 k), ← BitVec.add_assoc]
  rfl

/-- Fewer than 65536 steps up from an address do not come back to it. -/
theorem ne_add_ofNat {k : Nat} (hpos : 0 < k) (hk : k < 65536) (a : Word) : a ≠ a + BitVec.ofNat 16 k := by
  intro h
  have hzero : BitVec.ofNat 16 k = 0#16 := by simpa using h.symm
  have htoNat := congrArg BitVec.toNat hzero
  simp only [BitVec.toNat_ofNat] at htoNat
  omega

theorem State.cell_storeWords_of_ne {s : State} {a b : Word} {ws : List Word}
    (h : ∀ k, k < ws.length → b ≠ a + BitVec.ofNat 16 k) : (s.storeWords a ws).cell b = s.cell b := by
  induction ws generalizing s a with
  | nil => rfl
  | cons w ws ih =>
    have hfirst : b ≠ a := by simpa using h 0 (Nat.succ_pos _)
    have hrest : ∀ k, k < ws.length → b ≠ a + 1 + BitVec.ofNat 16 k := fun k hk => by
      rw [add_one_add_ofNat]
      exact h (k + 1) (Nat.succ_lt_succ hk)
    exact (ih hrest).trans (cell_memWrite_of_ne hfirst)

/-- No word overwrites an earlier one as long as the words do not go once round the address space. -/
theorem State.cell_storeWords {s : State} {a w : Word} {ws : List Word} {k : Nat} (hwf : s.mem.wf = true)
    (hlength : ws.length ≤ 65536) (hk : ws[k]? = some w) : (s.storeWords a ws).cell (a + BitVec.ofNat 16 k) = w := by
  induction ws generalizing s a k with
  | nil => cases hk
  | cons first rest ih =>
    rw [List.length_cons] at hlength
    cases k with
    | zero =>
      cases hk
      have hlater : ∀ k, k < rest.length → a ≠ a + 1 + BitVec.ofNat 16 k := fun k hk => by
        rw [add_one_add_ofNat]
        exact ne_add_ofNat k.succ_pos (by omega) a
      rw [BitVec.add_zero]
      exact (cell_storeWords_of_ne hlater).trans (cell_memWrite_same hwf a w)
    | succ k =>
      rw [← add_one_add_ofNat]
      exact ih (wf_memWrite hwf a first) (by omega) hk

end Sys2Proof.Machine

namespace Sys2Proof.Proofs

open Sys2Proof.Machine

/-- Settles O59: the lengths by the two outcomes of loading, which exclude each other, and the words by the two-byte recursion
of the image. -/
theorem imageFormat : Obligations.ImageFormat := by
  intro s bytes
  refine ⟨?ok, ?malformed, ?words⟩
  case ok | malformed => obtain ⟨hlength, t, ht⟩ | ⟨hlength, ht⟩ := s.loadImage_cases bytes <;> simp [ht, hlength]
  case words =>
    refine fun ws hws => ⟨length_of_imageWords hws, fun k w hi lo hw hhi hlo => ?_⟩
    have hword : w = bigEndianWord hi lo := Option.some.inj (hw.symm.trans (getElem?_of_imageWords hws hhi hlo))
    rw [hword, toNat_bigEndianWord]

/-- Settles O60: the loaded state is the one of the loader's stores, whose frame, canonical form and cells are each a rule of
their own. -/
theorem loadPlacesWords : Obligations.LoadPlacesWords := fun s _ origin ws hwf himage hws hlength =>
  ⟨s.storeWords origin ws, State.loadImage_of_imageWords himage hws s, s.storeWords_with_mem origin ws,
    State.wf_storeWords hwf, fun _ _ => State.cell_storeWords hwf hlength, fun _ => State.cell_storeWords_of_ne⟩

end Sys2Proof.Proofs
end

section
/-! The decoder on each family of words (40_decoder.md R104 to R123), and that it undoes the encoder: a field placed in a Word is
read back, and the other fields do not disturb it. -/

namespace Sys2Proof.Proofs

open Sys2Proof.Machine

/-- Settles O5: the opcode fixes the four bits that the decoder matches on, and bit 5 the form. -/
theorem operateWordsDecode : Obligations.OperateWordsDecode := by
  intro w
  simp only [opcode_eq_iff]
  refine ⟨?addReg, ?addImmediate, ?andReg, ?andImmediate, ?not⟩
  case not =>
    rintro ⟨h15, h14, h13, h12⟩
    simp [decodeOperation, h15, h14, h13, h12, fieldDr, fieldBase]
  all_goals
    rintro ⟨h15, h14, h13, h12⟩ h5
    simp [decodeOperation, h15, h14, h13, h12, h5, fieldDr, fieldBase, fieldSr2, fieldImm5]

/-- Settles O6: the opcode fixes the four bits that the decoder matches on; bits 8..6 tell RET from JMP, bit 11 JSR from JSRR. -/
theorem controlAndSystemWordsDecode : Obligations.ControlAndSystemWordsDecode := by
  intro w
  simp only [opcode_eq_iff]
  refine ⟨?br, ?jmp, ?ret, ?jsr, ?jsrr, ?trap, ?rti, ?res⟩
  case jmp | ret | jsr | jsrr =>
    rintro ⟨h15, h14, h13, h12⟩ hform
    simp [decodeOperation, h15, h14, h13, h12, hform, fieldBase, fieldOffset11]
  all_goals
    rintro ⟨h15, h14, h13, h12⟩
    simp [decodeOperation, h15, h14, h13, h12, fieldOffset9, fieldVector]

/-- Settles O7: the opcode fixes the four bits that the decoder matches on. -/
theorem loadStoreWordsDecode : Obligations.LoadStoreWordsDecode := by
  intro w
  simp only [opcode_eq_iff]
  refine ⟨?ld, ?ldi, ?ldr, ?lea, ?st, ?sti, ?str⟩
  all_goals
    rintro ⟨h15, h14, h13, h12⟩
    simp [decodeOperation, h15, h14, h13, h12, fieldDr, fieldBase, fieldOffset9, fieldOffset6]

end Sys2Proof.Proofs

namespace Sys2Proof.Machine

/-! ### A placed field is read back, and no other field sees it -/

@[simp] theorem getElem_place_of_disjoint {n lo k : Nat} (h : k < lo ∨ lo + n ≤ k) (hk : k < 16) (v : BitVec n) :
    (place v lo)[k] = false := by
  by_cases hlt : k < lo
  · simp [place, hlt]
  · simp [place, BitVec.getLsbD_of_ge v (k - lo) (by omega)]

@[simp] theorem getElem_place_ofBool {k : Nat} (hk : k < 16) (b : Bool) : (place (BitVec.ofBool b) k)[k] = b := by
  simp [place]

@[simp] theorem extractLsb'_place_of_disjoint {n n' lo lo' : Nat} (h : lo' + n' ≤ lo ∨ lo + n ≤ lo') (v : BitVec n) :
    (place v lo).extractLsb' lo' n' = 0#n' := by
  ext k hk
  by_cases hlt : lo' + k < lo
  · simp [place, hlt]
  · simp [place, BitVec.getLsbD_of_ge v (lo' + k - lo) (by omega)]

@[simp] theorem extractLsb'_place {n lo : Nat} (hn : lo + n ≤ 16) (v : BitVec n) : (place v lo).extractLsb' lo n = v := by
  ext k hk
  have hlt : lo + k < 16 := by omega
  simp [place, hlt, BitVec.getLsbD_eq_getElem hk]

/-- A value that a field of its width delivers is the sign extension of its low part. -/
theorem sext_setWidth_of_fitsSigned {n : Nat} {v : Word} (h : fitsSigned n v = true) : sext (v.setWidth n) = v := by
  simpa [fitsSigned] using h

/-! ### The round trip -/

theorem serviceOf_eq_none_of_wellFormed {v : Byte} (h : (Instr.trap v).wellFormed = true) : serviceOf v = none := by
  obtain ⟨hgetc, hout, hputs, hin, hhalt⟩ : v ≠ 0x20 ∧ v ≠ 0x21 ∧ v ≠ 0x22 ∧ v ≠ 0x23 ∧ v ≠ 0x25 := by
    simpa [Instr.wellFormed, servedVectors] using h
  rw [serviceOf, if_neg hgetc, if_neg hout, if_neg hputs, if_neg hin, if_neg hhalt]

/-- Each pattern puts its opcode and its fields apart, so the decoder finds the arm and reads the operands back. -/
theorem decode_encode {i : Instr} (hwf : i.wellFormed = true) : decode (encode i) = i := by
  rw [decode]
  cases i
  case getc | out | puts | inp | halt | ret | rti | res => rfl
  case trap v =>
    have hunserved : serviceOf v = none := serviceOf_eq_none_of_wellFormed hwf
    simp [encode, decodeOperation, fieldVector, BitVec.extractLsb'_or, selectService, hunserved]
  case jmp r =>
    have hr : r ≠ 7#3 := by simpa [Instr.wellFormed] using hwf
    simp [encode, decodeOperation, fieldBase, BitVec.extractLsb'_or, if_neg hr, selectService]
  case addRegMode | andRegMode | not | jsrr =>
    simp [encode, decodeOperation, fieldDr, fieldBase, fieldSr2, BitVec.extractLsb'_or, selectService]
  all_goals
    simp [encode, decodeOperation, fieldDr, fieldBase, fieldImm5, fieldOffset6, fieldOffset9, fieldOffset11,
      BitVec.extractLsb'_or, sext_setWidth_of_fitsSigned hwf, selectService]

end Sys2Proof.Machine

namespace Sys2Proof.Proofs

open Sys2Proof.Machine

/-- Settles O2, by the rules that read a placed field back. -/
theorem decodeOfEncode : Obligations.DecodeOfEncode := fun _ => decode_encode

/-- Settles O3, by the arms of the decoder. -/
theorem decodeIsWellFormed : Obligations.DecodeIsWellFormed := wellFormed_decode

/-- Settles O1: each word is decoded. -/
theorem writtenWordsDecode : Obligations.WrittenWordsDecode := by
  unfold Obligations.WrittenWordsDecode
  decide

end Sys2Proof.Proofs
end

section
/-! The invariant over a step (20_memory.md R40, 10_state.md R35), and the run state's frame, from the shapes of `State.Effect`. -/

namespace Sys2Proof.Machine

open Sys2Proof.Claims Sys2Proof.Safety

/-! ### Soundness -/

/-- The invariant speaks of memory, the run state and the fault record only. -/
theorem State.sound_congr {s t : State} (h : Sound s) (hmem : t.mem = s.mem) (hrun : t.run = s.run)
    (hfault : t.fault = s.fault) : Sound t := by
  unfold Sound
  rwa [hmem, hrun, hfault]

theorem State.ByAccess.sound {s t : State} (h : s.ByAccess t) (hs : Sound s) : Sound t :=
  State.sound_congr hs h.mem h.run h.fault

theorem State.sound_fetch {s : State} (hs : Sound s) : Sound s.fetch.2 :=
  State.sound_congr hs s.fetch_mem s.fetch_run s.fetch_fault

theorem State.sound_memWrite {s : State} (hs : Sound s) (a v : Word) : Sound (s.memWrite a v) :=
  ⟨State.wf_memWrite hs.1 a v, hs.2⟩

/-- A machine that is halted may have a fault recorded or not. -/
theorem State.sound_of_halted {s t : State} (hs : Sound s) (hmem : t.mem = s.mem) (hrun : t.run = .halted) : Sound t :=
  ⟨hmem ▸ hs.1, fun _ => hrun⟩

theorem State.Effect.sound {i : Instr} {s t : State} (h : s.Effect i t) (hs : Sound s) : Sound t := by
  cases h with
  | writesReg _ hu => exact State.sound_congr (hu.sound hs) rfl rfl rfl
  | stores _ hu => exact State.sound_memWrite (hu.sound hs) _ _
  | jumps _ => exact State.sound_congr hs rfl rfl rfl
  | calls _ _ => exact State.sound_congr hs rfl rfl rfl
  | illegal _ => exact State.sound_of_halted hs rfl rfl
  | trapReturns _ hu => exact State.sound_congr hs hu.mem hu.run hu.fault
  | trapReads _ hu => exact State.sound_congr hs hu.mem hu.run hu.fault
  | trapHalts _ hu => exact State.sound_of_halted hs hu.mem rfl
  | trapFaults _ hu => exact State.sound_of_halted hs hu.mem rfl

theorem sound_reset : Sound State.reset := ⟨reset_mem_wf, fun hfault => absurd rfl hfault⟩

/-! ### The run state and the fault record -/

theorem State.Effect.run_and_fault_of_not_isTrap {i : Instr} {s t : State} (h : s.Effect i t) (htrap : ¬ isTrap i)
    (hrti : i ≠ .rti) (hres : i ≠ .res) : t.run = s.run ∧ t.fault = s.fault := by
  cases h with
  | writesReg _ hu => exact ⟨hu.run, hu.fault⟩
  | stores _ hu => exact ⟨hu.run, hu.fault⟩
  | jumps _ => exact ⟨rfl, rfl⟩
  | calls _ _ => exact ⟨rfl, rfl⟩
  | illegal hi => exact absurd hi (not_or.2 ⟨hrti, hres⟩)
  | trapReturns hi _ => exact absurd hi htrap
  | trapReads hi _ => exact absurd (isTrap_of_writesR0 hi) htrap
  | trapHalts hi _ => exact absurd hi htrap
  | trapFaults hi _ => exact absurd hi htrap

/-! ### Illegal instructions -/

/-- Only a TRAP's link write comes before the fault. -/
theorem exec_of_isIllegal {i : Instr} (h : isIllegal i) (s : State) :
    exec i s = .next s.raiseIllegal ∨ exec i s = .next s.link.raiseIllegal := by
  obtain rfl | rfl | ⟨v, rfl, hv⟩ := h
  · exact .inl rfl
  · exact .inl rfl
  · exact .inr (execTrap_of_unserved hv s)

end Sys2Proof.Machine

namespace Sys2Proof.Proofs

open Sys2Proof.Machine

/-- Settles O12: a halted machine stays as it is; a running one's fetch and its instruction each keep the invariant. -/
theorem stepKeepsInvariant : Obligations.StepKeepsInvariant := by
  intro s t hs hstep
  cases hrun : s.run with
  | halted =>
    cases (step_of_halted hrun).symm.trans hstep
    exact hs
  | running =>
    rw [step_of_running hrun] at hstep
    exact (exec_effect hstep).sound (State.sound_fetch hs)

/-- Settles O11: no cell is listed and no fault is recorded. -/
theorem resetIsSound : Obligations.ResetIsSound := sound_reset

/-- Settles O50, by the shapes of the state that an instruction can answer. -/
theorem runStateFrame : Obligations.RunStateFrame := fun _ _ _ h htrap hrti hres =>
  (exec_effect h).run_and_fault_of_not_isTrap htrap hrti hres

/-- Settles O56: the fault is taken on the fetched state, which keeps the instruction's address and word. -/
theorem illegalInstructionEndsRun : Obligations.IllegalInstructionEndsRun := by
  intro s hrun hillegal
  rw [step_of_running hrun]
  obtain hexec | hexec := exec_of_isIllegal hillegal s.fetch.2
  · exact ⟨_, hexec, rfl, rfl⟩
  · exact ⟨_, hexec, rfl, rfl⟩

end Sys2Proof.Proofs
end

section
/-! The placing of a word for the next fetch (log 31). -/

namespace Sys2Proof.Machine

theorem tableWord_toNat (w : Word) : tableWord 16 w.toNat = w := by
  rw [tableWord, Nat.mod_eq_of_lt w.isLt, BitVec.ofNat_toNat, BitVec.setWidth_eq]

/-- Whatever the run state and PC were: the machine runs, PC is at a plain cell, and memory is as it was. -/
theorem State.readyToFetch_spec (s : State) :
    s.readyToFetch.run = .running ∧ isDevice s.readyToFetch.pc = false ∧ s.readyToFetch.mem = s.mem := by
  have hreset : isDevice Config.resetPc = false := rfl
  cases hrun : s.run <;> cases hpc : isDevice s.pc <;> simp [readyToFetch, hrun, hpc, hreset]

theorem State.readyToFetch_of_ready {s : State} (hrun : s.run = .running) (hpc : isDevice s.pc = false) :
    s.readyToFetch = s := by
  simp [readyToFetch, hrun, hpc]

theorem State.withFetchWord_toNat (s : State) (w : Word) :
    s.withFetchWord 16 w.toNat = s.readyToFetch.memWrite s.readyToFetch.pc w := by
  rw [withFetchWord, placeFetchWord, tableWord_toNat]

end Sys2Proof.Machine

namespace Sys2Proof.Proofs

open Sys2Proof.Machine

/-- Settles O58: the state made ready runs with PC at a plain cell, where the next fetch reads the placed word. -/
theorem placedWordRunsNext : Obligations.PlacedWordRunsNext := by
  intro s w hwf
  rw [State.withFetchWord_toNat]
  obtain ⟨hready, hplain, hmem⟩ := s.readyToFetch_spec
  have hfetch : (s.readyToFetch.memWrite s.readyToFetch.pc w).fetch.1 = w :=
    State.fetch_memWrite_pc hplain (by rwa [hmem]) w
  refine ⟨?step, hfetch, fun hrun hpc => ?frame⟩
  case step => rw [step_of_running (by exact hready), hfetch]
  case frame => rw [State.readyToFetch_of_ready hrun hpc]

end Sys2Proof.Proofs
end

section
/-! Reset, the register file's two ports (10_state.md R24 to R31, R36), and the linking jumps (42_control.md R154, R155). -/

namespace Sys2Proof.Machine

theorem State.getReg_reset (r : RegIdx) : State.reset.getReg r = 0 := by
  simp [State.getReg, State.reset]

theorem State.cell_reset (a : Word) : State.reset.cell a = 0 := rfl

/-- The write port reaches the named register and COND; the read port answers every other name as before. -/
theorem State.get_setReg_of_ne {s : State} {r : RegIdx} {v : Word} {name : RegName} (hr : name ≠ .gpr r)
    (hcond : name ≠ .cond) : (s.setReg r v).get name = s.get name := by
  cases name with
  | gpr j => exact getReg_setReg_of_ne fun hj => hr (congrArg RegName.gpr hj)
  | pc => rfl
  | cond => exact absurd rfl hcond

theorem State.get_cond {s : State} {c : CondFlag} (h : s.cond = c) : s.get .cond = c.toWord :=
  congrArg CondFlag.toWord h

theorem RegName.slot_lt (name : RegName) : name.slot < 10 := by
  cases name with
  | gpr r => exact Nat.lt_of_lt_of_le r.isLt (by decide)
  | pc => decide
  | cond => decide

/-- R0 to R7 have the slots below 8, so no register shares one with PC or COND. -/
theorem RegName.slot_injective : Function.Injective RegName.slot := by
  intro name name' h
  cases name <;> cases name' <;> simp only [RegName.slot] at h
  case gpr.gpr r r' => exact congrArg RegName.gpr (BitVec.eq_of_toNat_eq h)
  case pc.pc | cond.cond => rfl
  all_goals omega

end Sys2Proof.Machine

namespace Sys2Proof.Proofs

open Sys2Proof.Machine

/-- Settles O10: the fields by the definition of reset, each register and each cell by its view. -/
theorem resetState : Obligations.ResetState :=
  ⟨rfl, rfl, State.getReg_reset, State.cell_reset, rfl, rfl, rfl, rfl, rfl⟩

/-- Settles O14, by the rules of the two ports and of the slots. -/
theorem registerFilePorts : Obligations.RegisterFilePorts := fun s r v =>
  ⟨s.getReg_setReg_same r v, rfl, fun _ => State.get_setReg_of_ne, rfl, State.get_cond, State.get_cond, State.get_cond, rfl, rfl,
    rfl, RegName.slot_lt, fun _ _ h => RegName.slot_injective h, fun _ => rfl⟩

/-- Settles O20: the link and one write of PC, by the definitions of the two ports. -/
theorem jsrResult : Obligations.JsrResult := fun _ _ => rfl

/-- Settles O21: the base register is read through the link. -/
theorem jsrrResult : Obligations.JsrrResult := by
  intro s baseR
  rw [exec, execJsrr, State.getReg_link]
  rfl

end Sys2Proof.Proofs
end

section
/-! The keyboard's two intercepted reads (20_memory.md R45, R46). -/

namespace Sys2Proof.Machine

theorem State.kbsrRead_of_ready {s : State} (h : s.kbReady = true) : s.kbsrRead = (0x8000, s) := by
  simp [kbsrRead, h]

theorem State.kbsrRead_of_char {s : State} {c : Byte} {rest : List ConsoleAnswer} (hready : s.kbReady = false)
    (hinput : s.console.input = .char c :: rest) :
    s.kbsrRead = (0x8000, { s with kbReady := true, kbData := c, console := { s.console with input := rest } }) := by
  simp [kbsrRead, hostTryRead, hready, hinput]

/-- Both answers without a character use up one moment of the input. -/
theorem State.kbsrRead_of_idle_or_unavailable {s : State} {rest : List ConsoleAnswer} (hready : s.kbReady = false)
    (hinput : s.console.input = .idle :: rest ∨ s.console.input = .unavailable :: rest) :
    s.kbsrRead = (0, { s with console := { s.console with input := rest } }) := by
  obtain hinput | hinput := hinput <;> simp [kbsrRead, hostTryRead, hready, hinput]

theorem State.kbsrRead_of_silent {s : State} {rest : List ConsoleAnswer} (hready : s.kbReady = false)
    (hinput : s.console.input = .silent :: rest) : s.kbsrRead = (0, s) := by
  simp [kbsrRead, hostTryRead, hready, hinput]

theorem toNat_zext8_lt (c : Byte) : (zext8 c).toNat < 256 := by
  rw [zext8, BitVec.toNat_setWidth_of_le (by decide)]
  exact c.isLt

end Sys2Proof.Machine

namespace Sys2Proof.Proofs

open Sys2Proof.Machine

/-- Settles O42: the read at 0xFE00 is `kbsrRead`, by what the latch holds and what the host answers. -/
theorem keyboardStatusRead : Obligations.KeyboardStatusRead := fun s _ _ =>
  ⟨State.kbsrRead_of_ready, State.kbsrRead_of_char, State.kbsrRead_of_idle_or_unavailable, State.kbsrRead_of_silent,
    s.kbsrRead_value⟩

/-- Settles O43: the read at 0xFE02 is `kbdrRead`, which keeps the character. -/
theorem keyboardDataRead : Obligations.KeyboardDataRead := fun s => ⟨rfl, toNat_zext8_lt s.kbData, rfl⟩

end Sys2Proof.Proofs
end

section
/-! TRAP and the rows of its services (44_trap_system.md R190, R191, R197), RTI and RES (R198, R199). -/

namespace Sys2Proof.Machine

/-- A served vector's branch of `execTrap` is the instruction of its table row. -/
theorem execTrap_of_served {vector : Byte} {i : Instr} (h : serviceOf vector = some i) (s : State) :
    execTrap vector s = exec i s := by
  obtain ⟨rfl, e⟩ | ⟨rfl, e⟩ | ⟨rfl, e⟩ | ⟨rfl, e⟩ | ⟨rfl, e⟩ | ⟨hnone, -⟩ := execTrap_cases vector s
  case inr.inr.inr.inr.inr => simp [hnone] at h
  all_goals
    cases h
    exact e

/-- The service rows refine TRAP. -/
theorem exec_selectService (i : Instr) (s : State) : exec (selectService i) s = exec i s := by
  cases i
  case trap vector =>
    cases hservice : serviceOf vector with
    | none => rw [selectService, hservice, Option.getD_none]
    | some i =>
      rw [selectService, hservice, Option.getD_some]
      exact (execTrap_of_served hservice s).symm
  all_goals rfl

end Sys2Proof.Machine

namespace Sys2Proof.Proofs

open Sys2Proof.Machine

/-- Settles O8. -/
theorem serviceRowsRefineTrap : Obligations.ServiceRowsRefineTrap := exec_selectService

/-- Settles O37: a vector other than the five names no service, and each of the five names its service's row. -/
theorem trapResult : Obligations.TrapResult := by
  intro s vector
  refine ⟨fun hgetc hout hputs hin hhalt => ?unserved, execTrap_of_served rfl s, execTrap_of_served rfl s,
    execTrap_of_served rfl s, execTrap_of_served rfl s, execTrap_of_served rfl s⟩
  have hunserved : serviceOf vector = none := by
    rw [serviceOf, if_neg hgetc, if_neg hout, if_neg hputs, if_neg hin, if_neg hhalt]
  exact execTrap_of_unserved hunserved s

/-- Settles O38: by the definition of raising the fault. -/
theorem reservedOpcodesTakeFault : Obligations.ReservedOpcodesTakeFault := fun _ => ⟨rfl, rfl⟩

end Sys2Proof.Proofs
end

section
/-! The calls of the console (20_memory.md R61 to R63) and the services as chains of them (44_trap_system.md R192 to R196): how
each call goes, and that a failing one takes HostIOFailure. -/

namespace Sys2Proof.Machine

/-! ### Writing -/

section
variable {s t : State} {b : Byte} {bytes : List Byte} {n : Nat}

theorem State.hostWrite_of_none (h : s.console.writesUntilFailure = none) (b : Byte) :
    s.hostWrite b = .written { s with console := { s.console with output := s.console.output ++ [b] } } := by
  simp only [hostWrite, h]

theorem State.hostWrite_of_succ (h : s.console.writesUntilFailure = some (n + 1)) (b : Byte) :
    s.hostWrite b =
      .written
        { s with
          console := { s.console with output := s.console.output ++ [b], writesUntilFailure := some n } } := by
  simp only [hostWrite, h]

theorem State.hostWrite_of_zero (h : s.console.writesUntilFailure = some 0) (b : Byte) : s.hostWrite b = .fails s := by
  simp only [hostWrite, h]

theorem State.hostWriteAll_of_none (h : s.console.writesUntilFailure = none) (bytes : List Byte) :
    s.hostWriteAll bytes = .written { s with console := { s.console with output := s.console.output ++ bytes } } := by
  simp only [hostWriteAll, h]

theorem State.hostWriteAll_of_le (h : s.console.writesUntilFailure = some n) (hle : bytes.length ≤ n) :
    s.hostWriteAll bytes =
      .written
        { s with
          console :=
            { s.console with
              output := s.console.output ++ bytes, writesUntilFailure := some (n - bytes.length) } } := by
  simp only [hostWriteAll, h, if_pos hle]

theorem State.hostWriteAll_of_lt (h : s.console.writesUntilFailure = some n) (hlt : n < bytes.length) :
    s.hostWriteAll bytes =
      .fails
        { s with
          console :=
            { s.console with output := s.console.output ++ bytes.take n, writesUntilFailure := some 0 } } := by
  simp only [hostWriteAll, h, if_neg (Nat.not_le.2 hlt)]

/-! The closed form of the writing loop follows the loop. -/

theorem State.hostWriteAll_nil (s : State) : s.hostWriteAll [] = .written s := by
  cases h : s.console.writesUntilFailure with
  | none => rw [hostWriteAll_of_none h, List.append_nil]
  | some n => rw [hostWriteAll_of_le (bytes := []) h n.zero_le, List.append_nil, List.length_nil, Nat.sub_zero, ← h]

theorem State.hostWriteAll_cons_of_written (h : s.hostWrite b = .written t) (bytes : List Byte) :
    s.hostWriteAll (b :: bytes) = t.hostWriteAll bytes := by
  cases hw : s.console.writesUntilFailure with
  | none =>
    cases (hostWrite_of_none hw b).symm.trans h
    simp [hostWriteAll, hw]
  | some n =>
    cases n with
    | zero => cases (hostWrite_of_zero hw b).symm.trans h
    | succ n =>
      cases (hostWrite_of_succ hw b).symm.trans h
      simp [hostWriteAll, hw]

theorem State.hostWriteAll_cons_of_fails (h : s.hostWrite b = .fails t) (bytes : List Byte) :
    s.hostWriteAll (b :: bytes) = .fails t := by
  cases hw : s.console.writesUntilFailure with
  | none => cases (hostWrite_of_none hw b).symm.trans h
  | some n =>
    cases n with
    | zero =>
      cases (hostWrite_of_zero hw b).symm.trans h
      rw [hostWriteAll_of_lt (bytes := b :: bytes) hw (Nat.succ_pos _), List.take_zero, List.append_nil, ← hw]
    | succ n => cases (hostWrite_of_succ hw b).symm.trans h

/-! ### Reading -/

/-- A blocking read waits past every moment without a character. -/
theorem State.hostReadFrom_replicate_idle (s : State) (k : Nat) (l : List ConsoleAnswer) :
    s.hostReadFrom (List.replicate k .idle ++ l) = s.hostReadFrom l := by
  induction k with
  | zero => rfl
  | succ k ih => rw [List.replicate_succ, List.cons_append, hostReadFrom, ih]

variable {k : Nat} {c : Byte} {rest : List ConsoleAnswer}

theorem State.hostRead_of_char (h : s.console.input = List.replicate k .idle ++ .char c :: rest) :
    s.hostRead = .yields c { s with console := { s.console with input := rest } } := by
  rw [hostRead, h, hostReadFrom_replicate_idle, hostReadFrom]

theorem State.hostRead_of_unlisted (h : s.console.input = List.replicate k .idle) :
    s.hostRead =
      .yields (Config.readByte s.console.draws)
        { s with console := { s.console with input := [], draws := s.console.draws + 1 } } := by
  rw [hostRead, h, ← List.append_nil (List.replicate k _), hostReadFrom_replicate_idle, hostReadFrom]

theorem State.hostRead_of_unavailable (h : s.console.input = List.replicate k .idle ++ .unavailable :: rest) :
    s.hostRead = .fails { s with console := { s.console with input := rest } } := by
  rw [hostRead, h, hostReadFrom_replicate_idle, hostReadFrom]

theorem State.hostRead_of_silent (h : s.console.input = List.replicate k .idle ++ .silent :: rest) :
    s.hostRead = .blocks := by
  rw [hostRead, h, hostReadFrom_replicate_idle, hostReadFrom]

end

/-! ### The services as chains of calls -/

/-- What follows a write of the console: the rest of the service, or the fault (60_exceptions.md R222). -/
def HostWriteResult.andThen (r : HostWriteResult) (f : State → Result) : Result :=
  match r with
  | .written t => f t
  | .fails t => .next (t.raise .hostIOFailure)

/-- What follows a blocking read: the rest of the service, the fault, or nothing at all (20_memory.md R62). -/
def HostReadResult.andThen (r : HostReadResult) (f : Byte → State → Result) : Result :=
  match r with
  | .yields c t => f c t
  | .fails t => .next (t.raise .hostIOFailure)
  | .blocks => .fault .hostReadBlocked

@[simp] theorem HostWriteResult.andThen_written (t : State) (f : State → Result) :
    (HostWriteResult.written t).andThen f = f t := rfl

@[simp] theorem HostWriteResult.andThen_fails (t : State) (f : State → Result) :
    (HostWriteResult.fails t).andThen f = .next (t.raise .hostIOFailure) := rfl

@[simp] theorem HostReadResult.andThen_yields (c : Byte) (t : State) (f : Byte → State → Result) :
    (HostReadResult.yields c t).andThen f = f c t := rfl

@[simp] theorem HostReadResult.andThen_fails (t : State) (f : Byte → State → Result) :
    (HostReadResult.fails t).andThen f = .next (t.raise .hostIOFailure) := rfl

@[simp] theorem HostReadResult.andThen_blocks (f : Byte → State → Result) :
    HostReadResult.blocks.andThen f = .fault .hostReadBlocked := rfl

theorem serviceGetc_eq (s : State) : serviceGetc s = s.hostRead.andThen fun c t => .next (t.setReg 0 (zext8 c)) := by
  unfold serviceGetc
  cases s.hostRead <;> rfl

theorem serviceOut_eq (s : State) : serviceOut s = (s.hostWrite (lowByte (s.getReg 0))).andThen .next := by
  unfold serviceOut
  cases s.hostWrite (lowByte (s.getReg 0)) <;> rfl

theorem serviceHalt_eq (s : State) : serviceHalt s = (s.hostWriteAll Config.haltMessage).andThen fun t => .next t.halt := by
  unfold serviceHalt
  cases s.hostWriteAll Config.haltMessage <;> rfl

/-- What IN does once its prompt is written: the read, the echo, then R0. -/
def readAndEcho (s : State) : Result :=
  s.hostRead.andThen fun c t => (t.hostWrite c).andThen fun u => .next (u.setReg 0 (zext8 c))

theorem serviceIn_eq (s : State) : serviceIn s = (s.hostWriteAll Config.inPrompt).andThen readAndEcho := by
  unfold serviceIn readAndEcho
  cases s.hostWriteAll Config.inPrompt with
  | fails t => rfl
  | written t =>
    dsimp only [HostWriteResult.andThen_written]
    cases t.hostRead with
    | fails u => rfl
    | blocks => rfl
    | yields c u =>
      dsimp only [HostReadResult.andThen_yields]
      cases u.hostWrite c <;> rfl

theorem putsLoop_succ (fuel : Nat) (p : Word) (s : State) :
    putsLoop (fuel + 1) p s =
      if (s.memRead p).1 = 0 then .next (s.memRead p).2
      else ((s.memRead p).2.hostWrite (lowByte (s.memRead p).1)).andThen (putsLoop fuel (p + 1)) := by
  rw [putsLoop]
  cases (s.memRead p).2.hostWrite (lowByte (s.memRead p).1) <;> rfl

end Sys2Proof.Machine

namespace Sys2Proof.Proofs

open Sys2Proof.Machine

/-- Settles O39, by the counter of the console's writes. -/
theorem writingBytesIsTheLoop : Obligations.WritingBytesIsTheLoop := fun s _ bytes =>
  ⟨s.hostWriteAll_nil, fun _ h => State.hostWriteAll_cons_of_written h bytes,
    fun _ h => State.hostWriteAll_cons_of_fails h bytes⟩

end Sys2Proof.Proofs
end

section
/-! GETC, OUT, IN and HALT (44_trap_system.md R192, R193, R195, R196), by what the console answers and how many writes it takes. -/

namespace Sys2Proof.Proofs

open Sys2Proof.Machine

/-- Settles O27: the link, then the read past the idle moments. -/
theorem getcResult : Obligations.GetcResult := by
  intro s k c rest
  constructor
  · intro hinput
    rw [exec, execGetc, serviceGetc_eq, State.hostRead_of_char (s := s.link) hinput]
    rfl
  · intro hinput
    rw [exec, execGetc, serviceGetc_eq, State.hostRead_of_unlisted (s := s.link) hinput]
    rfl

/-- Settles O28: the link leaves R0, and the one write goes by the counter of the console. -/
theorem outResult : Obligations.OutResult := by
  intro s n
  have hr0 : s.link.getReg 0 = s.getReg 0 := State.getReg_link_of_ne (by decide)
  rw [exec, execOut, serviceOut_eq, hr0]
  refine ⟨fun hw => ?_, fun hw => ?_, fun hw => ?_⟩
  · rw [State.hostWrite_of_none (s := s.link) hw]
    rfl
  · rw [State.hostWrite_of_succ (s := s.link) hw]
    rfl
  · rw [State.hostWrite_of_zero (s := s.link) hw]
    rfl

/-- Settles O34: the link, the message, and what follows by the counter of the console. -/
theorem haltResult : Obligations.HaltResult := by
  intro s n
  rw [exec, execHalt, serviceHalt_eq]
  refine ⟨fun hw => ?_, fun hw => ?_⟩
  · rw [State.hostWriteAll_of_none (s := s.link) hw]
    rfl
  · split
    case isTrue hle =>
      rw [State.hostWriteAll_of_le (s := s.link) hw hle]
      rfl
    case isFalse hlt =>
      rw [State.hostWriteAll_of_lt (s := s.link) hw (Nat.not_le.1 hlt)]
      rfl

end Sys2Proof.Proofs
end

section
/-! IN (44_trap_system.md R195): the prompt, and then by the answer to its read. -/

namespace Sys2Proof.Machine

section
variable {s : State} {n : Nat}

/-- The console takes only a part of the prompt: nothing is read. -/
theorem serviceIn_of_lt (hw : s.console.writesUntilFailure = some n) (hlt : n < Config.inPrompt.length) :
    serviceIn s =
      .next
        { s with
          run := .halted
          fault := some { pc := s.fetchAddr, reason := .hostIOFailure }
          console :=
            { s.console with
              output := s.console.output ++ Config.inPrompt.take n, writesUntilFailure := some 0 } } := by
  rw [serviceIn_eq, State.hostWriteAll_of_lt hw hlt]
  rfl

theorem serviceIn_of_none (hw : s.console.writesUntilFailure = none) :
    serviceIn s = readAndEcho { s with console := { s.console with output := s.console.output ++ Config.inPrompt } } := by
  rw [serviceIn_eq, State.hostWriteAll_of_none hw]
  rfl

theorem serviceIn_of_le (hw : s.console.writesUntilFailure = some n) (hle : Config.inPrompt.length ≤ n) :
    serviceIn s =
      readAndEcho
        { s with
          console :=
            { s.console with
              output := s.console.output ++ Config.inPrompt
              writesUntilFailure := some (n - Config.inPrompt.length) } } := by
  rw [serviceIn_eq, State.hostWriteAll_of_le hw hle]
  rfl

end

/-! ### A read that yields a character -/

/-- A blocking read yields `c` and leaves `input` and `draws`, whatever has been written by then. -/
def State.ReadYields (s : State) (c : Byte) (input : List ConsoleAnswer) (draws : Nat) : Prop :=
  ∀ t : State, t.console.input = s.console.input → t.console.draws = s.console.draws →
    t.hostRead = .yields c { t with console := { t.console with input := input, draws := draws } }

section
variable {s : State} {k n draws : Nat} {c : Byte} {input rest : List ConsoleAnswer}

theorem State.readYields_of_char (h : s.console.input = List.replicate k .idle ++ .char c :: rest) :
    s.ReadYields c rest s.console.draws := by
  intro t hinput hdraws
  rw [hostRead_of_char (hinput.trans h), ← hdraws]

theorem State.readYields_of_unlisted (h : s.console.input = List.replicate k .idle) :
    s.ReadYields (Config.readByte s.console.draws) [] (s.console.draws + 1) := by
  intro t hinput hdraws
  rw [hostRead_of_unlisted (hinput.trans h), hdraws]

theorem readAndEcho_of_readYields (h : s.ReadYields c input draws) :
    readAndEcho s =
      (({ s with console := { s.console with input := input, draws := draws } } : State).hostWrite c).andThen fun u =>
        .next (u.setReg 0 (zext8 c)) := by
  rw [readAndEcho, h s rfl rfl, HostReadResult.andThen_yields]

theorem serviceIn_of_readYields_of_none (h : s.ReadYields c input draws) (hw : s.console.writesUntilFailure = none) :
    serviceIn s =
      .next
        { s with
          regs := s.regs.set 0 (zext8 c)
          cond := flags (zext8 c)
          console :=
            { s.console with
              input := input, draws := draws, output := s.console.output ++ Config.inPrompt ++ [c] } } := by
  rw [serviceIn_of_none hw, readAndEcho_of_readYields (by exact h), State.hostWrite_of_none (by exact hw)]
  rfl

/-- With a failing write to come: all of it, or the fault where the prompt or the echo fails. -/
theorem serviceIn_of_readYields_of_some (h : s.ReadYields c input draws) (hw : s.console.writesUntilFailure = some n) :
    serviceIn s =
      if Config.inPrompt.length < n then
        .next
          { s with
            regs := s.regs.set 0 (zext8 c)
            cond := flags (zext8 c)
            console :=
              { input := input
                draws := draws
                output := s.console.output ++ Config.inPrompt ++ [c]
                writesUntilFailure := some (n - Config.inPrompt.length - 1) } }
      else
        .next
          { s with
            run := .halted
            fault := some { pc := s.fetchAddr, reason := .hostIOFailure }
            console :=
              { input := if n = Config.inPrompt.length then input else s.console.input
                draws := if n = Config.inPrompt.length then draws else s.console.draws
                output := s.console.output ++ Config.inPrompt.take n
                writesUntilFailure := some 0 } } := by
  obtain hlt | rfl | hgt := Nat.lt_trichotomy n Config.inPrompt.length
  · rw [serviceIn_of_lt hw hlt, if_neg hlt.not_gt, if_neg hlt.ne, if_neg hlt.ne]
  · rw [serviceIn_of_le hw le_rfl, readAndEcho_of_readYields (by exact h),
      State.hostWrite_of_zero (by simp), if_neg (Nat.lt_irrefl _), if_pos rfl, if_pos rfl, List.take_length, Nat.sub_self]
    rfl
  · obtain ⟨m, hm⟩ : ∃ m, n - Config.inPrompt.length = m + 1 := Nat.exists_eq_add_one.2 (Nat.sub_pos_of_lt hgt)
    rw [serviceIn_of_le hw hgt.le, readAndEcho_of_readYields (by exact h),
      State.hostWrite_of_succ (n := m) (congrArg some hm), if_pos hgt, hm]
    rfl

end

end Sys2Proof.Machine

namespace Sys2Proof.Proofs

open Sys2Proof.Machine

/-- Settles O32: the read past the idle moments yields the listed character. -/
theorem inResult : Obligations.InResult := by
  intro s k n c rest hinput
  have hread : s.link.ReadYields c rest s.console.draws := State.readYields_of_char (by exact hinput)
  refine ⟨fun hw => serviceIn_of_readYields_of_none hread hw, fun hw => ?_⟩
  have hresult := serviceIn_of_readYields_of_some hread hw
  rw [State.link_console, ite_self] at hresult
  exact hresult

/-- Settles O33: the read past the idle moments yields the free value. -/
theorem inFreeResult : Obligations.InFreeResult := by
  intro s k n hinput
  have hread : s.link.ReadYields (Config.readByte s.console.draws) [] (s.console.draws + 1) :=
    State.readYields_of_unlisted (by exact hinput)
  exact ⟨fun hw => serviceIn_of_readYields_of_none hread hw, fun hw => serviceIn_of_readYields_of_some hread hw⟩

end Sys2Proof.Proofs
end

section
/-! GETC and IN when no character comes (20_memory.md R62, R63): the console fails the read, or never answers it. -/

namespace Sys2Proof.Machine

section
variable {s : State} {k : Nat} {rest : List ConsoleAnswer}

theorem readAndEcho_of_unavailable (h : s.console.input = List.replicate k .idle ++ .unavailable :: rest) :
    readAndEcho s = .next (({ s with console := { s.console with input := rest } } : State).raise .hostIOFailure) := by
  rw [readAndEcho, State.hostRead_of_unavailable h, HostReadResult.andThen_fails]

theorem readAndEcho_of_silent (h : s.console.input = List.replicate k .idle ++ .silent :: rest) :
    readAndEcho s = .fault .hostReadBlocked := by
  rw [readAndEcho, State.hostRead_of_silent h, HostReadResult.andThen_blocks]

end

end Sys2Proof.Machine

namespace Sys2Proof.Proofs

open Sys2Proof.Machine

/-- Settles O35: GETC's read fails at once; IN's when the whole prompt is written, and otherwise a write fails before it. -/
theorem failedReadTakesFault : Obligations.FailedReadTakesFault := by
  intro s k n rest hinput
  refine ⟨?getc, fun hw => ?inNone, fun hw => ?inSome⟩
  case getc =>
    rw [exec, execGetc, serviceGetc_eq, State.hostRead_of_unavailable (s := s.link) hinput]
    rfl
  case inNone =>
    rw [exec, execIn, serviceIn_of_none (s := s.link) hw, readAndEcho_of_unavailable (by exact hinput)]
    rfl
  case inSome =>
    obtain hle | hlt := le_or_gt Config.inPrompt.length n
    · rw [exec, execIn, serviceIn_of_le (s := s.link) hw hle, readAndEcho_of_unavailable (by exact hinput), if_pos hle,
        List.take_of_length_le hle]
      rfl
    · rw [exec, execIn, serviceIn_of_lt (s := s.link) hw hlt, if_neg (Nat.not_le.2 hlt), Nat.sub_eq_zero_of_le hlt.le]
      rfl

/-- Settles O36: the read blocks where it is reached, and it is not where the console takes only a part of the prompt. -/
theorem unansweredReadBlocks : Obligations.UnansweredReadBlocks := by
  intro s k n rest hinput
  refine ⟨?getc, fun hw => ?inNone, fun hw => ?inSome⟩
  case getc =>
    rw [exec, execGetc, serviceGetc_eq, State.hostRead_of_silent (s := s.link) hinput, HostReadResult.andThen_blocks]
  case inNone =>
    rw [exec, execIn, serviceIn_of_none (s := s.link) hw, readAndEcho_of_silent (by exact hinput)]
  case inSome =>
    obtain hle | hlt := le_or_gt Config.inPrompt.length n
    · rw [exec, execIn, serviceIn_of_le (s := s.link) hw hle, readAndEcho_of_silent (by exact hinput), if_pos hle]
    · rw [exec, execIn, serviceIn_of_lt (s := s.link) hw hlt, if_neg (Nat.not_le.2 hlt)]
      rfl

end Sys2Proof.Proofs
end

section
/-! PUTS (44_trap_system.md R194): over a string at plain addresses it writes a text; it is the loop without a bound; and it ends
wherever the loop must. -/

namespace Sys2Proof.Machine

open Sys2Proof.Claims

/-! ### A string at plain addresses -/

/-- The low bytes of the `n` cells from `p` up. -/
def State.text (s : State) (p : Word) (n : Nat) : List Byte :=
  (List.range n).map fun k => lowByte (s.cell (p + BitVec.ofNat 16 k))

theorem State.text_succ (s : State) (p : Word) (n : Nat) : s.text p (n + 1) = lowByte (s.cell p) :: s.text (p + 1) n := by
  simp only [text, List.range_succ_eq_map, List.map_cons, List.map_map, Function.comp_def, Nat.succ_eq_add_one,
    ← add_one_add_ofNat, BitVec.add_zero]

theorem State.length_text (s : State) (p : Word) (n : Nat) : (s.text p n).length = n := by
  rw [text, List.length_map, List.length_range]

theorem State.take_text (s : State) (p : Word) {m n : Nat} (h : m ≤ n) : (s.text p n).take m = s.text p m := by
  rw [text, ← List.map_take, List.take_range, Nat.min_eq_left h, text]

theorem State.text_congr {s t : State} (h : t.mem = s.mem) (p : Word) (n : Nat) : t.text p n = s.text p n := by
  simp only [text, State.cell_congr h]

/-- A string from `p`: `n` non-zero cells and then a zero one, all of them plain. -/
structure State.HasString (s : State) (p : Word) (n : Nat) : Prop where
  plain : ∀ k, k ≤ n → isDevice (p + BitVec.ofNat 16 k) = false
  nonzero : ∀ k, k < n → s.cell (p + BitVec.ofNat 16 k) ≠ 0
  terminator : s.cell (p + BitVec.ofNat 16 n) = 0

namespace State.HasString

variable {s t : State} {p : Word} {n : Nat}

theorem isDevice_head (h : s.HasString p n) : isDevice p = false := by
  simpa using h.plain 0 n.zero_le

theorem congr (h : s.HasString p n) (hmem : t.mem = s.mem) : t.HasString p n where
  plain := h.plain
  nonzero k hk := by simpa only [State.cell_congr hmem] using h.nonzero k hk
  terminator := by simpa only [State.cell_congr hmem] using h.terminator

theorem head_eq_zero (h : s.HasString p 0) : s.cell p = 0 := by
  simpa using h.terminator

theorem head_ne_zero (h : s.HasString p (n + 1)) : s.cell p ≠ 0 := by
  simpa using h.nonzero 0 n.succ_pos

theorem tail (h : s.HasString p (n + 1)) : s.HasString (p + 1) n where
  plain k hk := by simpa only [add_one_add_ofNat] using h.plain (k + 1) (Nat.succ_le_succ hk)
  nonzero k hk := by simpa only [add_one_add_ofNat] using h.nonzero (k + 1) (Nat.succ_lt_succ hk)
  terminator := by simpa only [add_one_add_ofNat] using h.terminator

end State.HasString

/-- Over a string the loop of PUTS writes its text. -/
theorem putsLoop_of_hasString {s : State} {p : Word} {n fuel : Nat} (h : s.HasString p n) (hfuel : n < fuel) :
    putsLoop fuel p s = (s.hostWriteAll (s.text p n)).andThen .next := by
  induction fuel generalizing s p n with
  | zero => exact absurd hfuel n.not_lt_zero
  | succ fuel ih =>
    rw [putsLoop_succ, State.memRead_plain h.isDevice_head]
    cases n with
    | zero =>
      have hempty : s.text p 0 = [] := rfl
      rw [if_pos h.head_eq_zero, hempty, s.hostWriteAll_nil, HostWriteResult.andThen_written]
    | succ n =>
      rw [if_neg h.head_ne_zero, State.text_succ]
      obtain ⟨t, hwritten, ht, -⟩ | hfails := s.hostWrite_byAccess (lowByte (s.cell p))
      · rw [State.hostWriteAll_cons_of_written hwritten, hwritten, HostWriteResult.andThen_written,
          ih (h.tail.congr ht.mem) (Nat.lt_of_succ_lt_succ hfuel), State.text_congr ht.mem]
      · rw [State.hostWriteAll_cons_of_fails hfails, hfails, HostWriteResult.andThen_fails, HostWriteResult.andThen_fails]

/-! ### The loop without a bound -/

/-- What the bounded loop answers, the loop without a bound ends in. -/
theorem putsRun_of_putsLoop {fuel : Nat} {p : Word} {s t : State} (h : putsLoop fuel p s = .next t) : PutsRun s p t := by
  induction fuel generalizing p s with
  | zero => cases h
  | succ fuel ih =>
    rw [putsLoop_succ] at h
    split at h
    case isTrue hzero =>
      cases h
      exact .terminator hzero
    case isFalse hne =>
      cases hwrite : (s.memRead p).2.hostWrite (lowByte (s.memRead p).1) with
      | written u =>
        rw [hwrite] at h
        exact .character hne hwrite (ih h)
      | fails u =>
        rw [hwrite] at h
        cases h
        exact .failure hne hwrite

/-- The bound is the only way in which the bounded loop differs. -/
theorem putsLoop_of_putsRun {p : Word} {s t : State} (h : PutsRun s p t) (fuel : Nat) :
    putsLoop fuel p s = .next t ∨ putsLoop fuel p s = .fault .putsUnending := by
  induction h generalizing fuel with
  | terminator hzero =>
    cases fuel with
    | zero => exact .inr rfl
    | succ fuel => exact .inl (by rw [putsLoop_succ, if_pos hzero])
  | failure hne hwrite =>
    cases fuel with
    | zero => exact .inr rfl
    | succ fuel => exact .inl (by rw [putsLoop_succ, if_neg hne, hwrite, HostWriteResult.andThen_fails])
  | character hne hwrite _ ih =>
    cases fuel with
    | zero => exact .inr rfl
    | succ fuel =>
      rw [putsLoop_succ, if_neg hne, hwrite, HostWriteResult.andThen_written]
      exact ih fuel

/-! ### Where the loop must end -/

/-- A pass of the loop that neither ends nor fails moves on by one cell, over the same memory. -/
theorem putsLoop_pass (fuel : Nat) (p : Word) (s : State) :
    (∃ t, putsLoop (fuel + 1) p s = .next t) ∨
      (s.memRead p).1 ≠ 0 ∧ ∃ u, (s.memRead p).2.hostWrite (lowByte (s.memRead p).1) = .written u ∧ u.mem = s.mem ∧
        putsLoop (fuel + 1) p s = putsLoop fuel (p + 1) u := by
  have hread := (s.memRead_byAccess p).mem
  rw [putsLoop_succ]
  split
  case isTrue => exact .inl ⟨_, rfl⟩
  case isFalse hne =>
    obtain ⟨u, hwritten, hu, -⟩ | hfails := (s.memRead p).2.hostWrite_byAccess (lowByte (s.memRead p).1)
    · rw [hwritten]
      exact .inr ⟨hne, u, rfl, hu.mem.trans hread, rfl⟩
    · rw [hfails]
      exact .inl ⟨_, rfl⟩

/-- A plain zero cell ends the loop once it is reached. -/
theorem putsLoop_completes_of_zero {d fuel : Nat} {p : Word} {s : State} (hplain : isDevice (p + BitVec.ofNat 16 d) = false)
    (hzero : s.cell (p + BitVec.ofNat 16 d) = 0) (hfuel : d < fuel) : ∃ t, putsLoop fuel p s = .next t := by
  induction fuel generalizing s p d with
  | zero => exact absurd hfuel d.not_lt_zero
  | succ fuel ih =>
    obtain hends | ⟨hne, u, -, hmem, hnext⟩ := putsLoop_pass fuel p s
    · exact hends
    cases d with
    | zero =>
      rw [BitVec.add_zero] at hplain hzero
      rw [State.memRead_plain hplain] at hne
      exact absurd hzero hne
    | succ d =>
      rw [← add_one_add_ofNat] at hplain hzero
      rw [hnext]
      exact ih hplain (by rwa [State.cell_congr hmem]) (Nat.lt_of_succ_lt_succ hfuel)

theorem State.hostTryRead_writesUntilFailure (s : State) :
    s.hostTryRead.2.console.writesUntilFailure = s.console.writesUntilFailure := by
  unfold hostTryRead
  split <;> rfl

/-- A read makes no write. -/
theorem State.memRead_writesUntilFailure (s : State) (a : Word) :
    (s.memRead a).2.console.writesUntilFailure = s.console.writesUntilFailure := by
  unfold memRead kbsrRead kbdrRead
  split
  · split
    · rfl
    · rw [← s.hostTryRead_writesUntilFailure]
      obtain ⟨_ | c, t⟩ := s.hostTryRead <;> rfl
  · split <;> rfl

/-- A counted write that fails ends the loop, since each pass uses up one write. -/
theorem putsLoop_completes_of_some {n fuel : Nat} {p : Word} {s : State} (hw : s.console.writesUntilFailure = some n)
    (hfuel : n < fuel) : ∃ t, putsLoop fuel p s = .next t := by
  induction fuel generalizing s p n with
  | zero => exact absurd hfuel n.not_lt_zero
  | succ fuel ih =>
    obtain hends | ⟨-, u, hwritten, -, hnext⟩ := putsLoop_pass fuel p s
    · exact hends
    have hread := (s.memRead_writesUntilFailure p).trans hw
    cases n with
    | zero => cases (State.hostWrite_of_zero hread _).symm.trans hwritten
    | succ n =>
      rw [hnext]
      cases (State.hostWrite_of_succ hread _).symm.trans hwritten
      exact ih rfl (Nat.lt_of_succ_lt_succ hfuel)

/-! ### PUTS -/

/-- The loop runs after the link write, which R0 and memory do not see. -/
theorem exec_puts_eq (s : State) : exec .puts s = putsLoop (putsFuel s.link) (s.getReg 0) s.link := by
  rw [exec, execPuts, servicePuts, State.getReg_link_of_ne (by decide)]

theorem lt_putsFuel_of_lt {d : Nat} (hd : d < 65536) (s : State) : d < putsFuel s := by
  unfold putsFuel
  omega

theorem lt_putsFuel_of_some {s : State} {n : Nat} (hw : s.console.writesUntilFailure = some n) : n < putsFuel s := by
  rw [putsFuel, hw, Option.getD_some]
  omega

theorem exec_puts_completes {s : State} {a : Word} {n : Nat}
    (h : (isDevice a = false ∧ s.cell a = 0) ∨ s.console.writesUntilFailure = some n) : ∃ t, exec .puts s = .next t := by
  rw [exec_puts_eq]
  obtain ⟨hplain, hzero⟩ | hw := h
  · -- counted from R0, the zero cell is less than once round the address space away
    obtain ⟨d, hd, rfl⟩ : ∃ d, d < 65536 ∧ s.getReg 0 + BitVec.ofNat 16 d = a :=
      ⟨(a - s.getReg 0).toNat, BitVec.isLt _, by rw [BitVec.ofNat_toNat, BitVec.setWidth_eq, add_sub_cancel]⟩
    exact putsLoop_completes_of_zero hplain hzero (lt_putsFuel_of_lt hd s.link)
  · exact putsLoop_completes_of_some (s := s.link) hw (lt_putsFuel_of_some hw)

end Sys2Proof.Machine

namespace Sys2Proof.Proofs

open Sys2Proof.Machine

/-- Settles O31: each of the two ends the loop within the bound. -/
theorem putsCompletes : Obligations.PutsCompletes := fun _ _ _ => exec_puts_completes

/-- Settles O30: the bounded loop is the loop, and where the bound is used up nothing can have ended it. -/
theorem putsIsTheLoop : Obligations.PutsIsTheLoop := by
  intro s t
  rw [exec_puts_eq]
  refine ⟨putsRun_of_putsLoop, fun hrun => (putsLoop_of_putsRun hrun (putsFuel s.link)).imp_right fun hunending => ?_⟩
  have hstops : ¬ ∃ t, exec .puts s = .next t := by
    rintro ⟨u, hu⟩
    cases hunending.symm.trans ((exec_puts_eq s).symm.trans hu)
  refine ⟨hunending, ?_, fun a hplain hzero => hstops (exec_puts_completes (n := 0) (.inl ⟨hplain, hzero⟩))⟩
  exact Option.eq_none_iff_forall_ne_some.2 fun n hw => hstops (exec_puts_completes (a := 0) (.inr hw))

/-- Settles O29: the string's text is written by the counter of the console. -/
theorem putsWritesTheString : Obligations.PutsWritesTheString := by
  intro s n hn hplain hnonzero hzero
  have hstring : s.link.HasString (s.getReg 0) n := ⟨hplain, hnonzero, hzero⟩
  have hlength := s.link.length_text (s.getReg 0) n
  rw [exec_puts_eq, putsLoop_of_hasString hstring (lt_putsFuel_of_lt hn s.link)]
  refine ⟨fun hall => ?success, fun m hw hm => ?failure⟩
  case success =>
    cases hw : s.console.writesUntilFailure with
    | none =>
      rw [State.hostWriteAll_of_none (s := s.link) hw, Option.map_none, ← hw]
      rfl
    | some m =>
      rw [State.hostWriteAll_of_le (s := s.link) hw (hlength.trans_le (hall m hw)), hlength]
      rfl
  case failure =>
    rw [State.hostWriteAll_of_lt (s := s.link) hw (hm.trans_eq hlength.symm), State.take_text _ _ hm.le]
    rfl

end Sys2Proof.Proofs
end

section
/-! COND after a general-register write (10_state.md R25), and after the two writes of GETC and IN (44_trap_system.md R192, R195). -/

namespace Sys2Proof.Machine

open Sys2Proof.Claims

/-- The register `r` was written last: COND holds its flags. -/
def State.CondFollows (s : State) (r : RegIdx) : Prop := s.cond = flags (s.getReg r)

theorem State.condFollows_setReg (s : State) (r : RegIdx) (v : Word) : (s.setReg r v).CondFollows r := by
  rw [CondFollows, getReg_setReg_same, setReg_cond]

theorem State.condFollows_link (s : State) : s.link.CondFollows 7 := s.condFollows_setReg 7 s.pc

theorem State.ByAccess.condFollows {s t : State} (h : s.ByAccess t) {r : RegIdx} (hs : s.CondFollows r) :
    t.CondFollows r := by
  rwa [CondFollows, h.cond, h.getReg]

/-- The shapes that write no general register leave COND, each other one ends its writes with a register of `i`. -/
theorem State.Effect.cond_kept_or_follows {i : Instr} {s t : State} (h : s.Effect i t) :
    (t.regs = s.regs ∧ t.cond = s.cond) ∨ ∃ r, mayWrite i r ∧ t.CondFollows r := by
  have hlink {u : State} (hi : isTrap i) (hu : s.link.ByAccess u) : mayWrite i 7 ∧ u.CondFollows 7 :=
    ⟨mayWrite_seven_of_isTrap hi, hu.condFollows s.condFollows_link⟩
  cases h with
  | writesReg hw _ => exact .inr ⟨_, hw, condFollows_setReg _ _ _⟩
  | stores _ hu => exact .inl ⟨hu.regs, hu.cond⟩
  | jumps _ => exact .inl ⟨rfl, rfl⟩
  | calls _ hw => exact .inr ⟨7, hw, s.condFollows_link⟩
  | illegal _ => exact .inl ⟨rfl, rfl⟩
  | trapReturns hi hu => exact .inr ⟨7, hlink hi hu⟩
  | trapReads hi _ => exact .inr ⟨0, mayWrite_zero_of_writesR0 hi, condFollows_setReg _ _ _⟩
  | trapHalts hi hu =>
    have hlast := hlink hi hu
    exact .inr ⟨7, hlast⟩
  | trapFaults hi hu =>
    have hlast := hlink hi hu
    exact .inr ⟨7, hlast⟩

/-- The four names of GETC and IN: after the link either R0 is written or the console's failure is taken. -/
theorem exec_writesR0_next {i : Instr} {s t : State} (hi : writesR0 i) (h : exec i s = .next t) :
    ∃ u, s.link.ByAccess u ∧ ((∃ c, t = u.setReg 0 (zext8 c)) ∨ t = u.raise .hostIOFailure) := by
  obtain rfl | rfl | rfl | rfl := hi
  · exact execGetc_next h
  · exact execIn_next h
  · exact execGetc_next ((execTrap_of_served (i := .getc) rfl s).symm.trans h)
  · exact execIn_next ((execTrap_of_served (i := .inp) rfl s).symm.trans h)

end Sys2Proof.Machine

namespace Sys2Proof.Proofs

open Sys2Proof.Machine

/-- Settles O47: by the shapes of the state that an instruction can answer, and for GETC and IN by the two ends of their service. -/
theorem condFollowsGeneralWrites : Obligations.CondFollowsGeneralWrites := by
  intro i s t h
  refine ⟨(exec_effect h).cond_kept_or_follows, fun hi hrun => ?services⟩
  obtain ⟨u, hu, ⟨c, rfl⟩ | rfl⟩ := exec_writesR0_next hi h
  · have hruns : u.run = .running := hu.run.trans hrun
    exact ⟨fun _ => u.condFollows_setReg 0 (zext8 c), fun hhalted => by simp [hruns] at hhalted⟩
  · refine ⟨fun hruns => by simp at hruns, fun _ => ⟨hu.condFollows s.condFollows_link, ?_⟩⟩
    exact (hu.getReg 0).trans (State.getReg_link_of_ne (by decide))

end Sys2Proof.Proofs
end

section
/-! The frame of the keyboard latch and of the console (20_memory.md R55, R61): a read of memory may reach both, the console's own
calls leave the latch (D12). -/

namespace Sys2Proof.Machine

open Sys2Proof.Claims

/-! ### Instructions other than TRAP: reads of memory at most -/

/-- `t` is `s` after some reads of memory. -/
inductive State.ByReads (s : State) : State → Prop where
  | refl : s.ByReads s
  | read {t : State} (a : Word) : s.ByReads t → s.ByReads (t.memRead a).2

theorem State.ByReads.output {s t : State} (h : s.ByReads t) : t.console.output = s.console.output := by
  induction h with
  | refl => rfl
  | read a _ ih => exact (State.memRead_output _ a).trans ih

/-- The keyboard latch holds what it held. -/
def State.SameLatch (s t : State) : Prop := t.kbReady = s.kbReady ∧ t.kbData = s.kbData

/-- The keyboard latch and the console are what they were. -/
def State.SameDevices (s t : State) : Prop := s.SameLatch t ∧ t.console = s.console

/-- An instruction other than TRAP reaches the devices by its reads alone, and only a reader of memory has any. -/
theorem exec_devices_of_not_isTrap {i : Instr} {s t : State} (h : exec i s = .next t) (hi : ¬ isTrap i) :
    s.SameDevices t ∨ readsMemory i ∧ ∃ u, s.ByReads u ∧ u.SameDevices t := by
  cases i
  case trap | getc | out | puts | inp | halt => simp [isTrap] at hi
  case ld | ldr | sti =>
    cases h
    exact .inr ⟨by simp [readsMemory], _, .read _ .refl, ⟨rfl, rfl⟩, rfl⟩
  case ldi =>
    cases h
    exact .inr ⟨by simp [readsMemory], _, .read _ (.read _ .refl), ⟨rfl, rfl⟩, rfl⟩
  case br n z p offset =>
    cases (execBr_eq n z p offset s).symm.trans h
    exact .inl ⟨⟨rfl, rfl⟩, rfl⟩
  all_goals
    cases h
    exact .inl ⟨⟨rfl, rfl⟩, rfl⟩

/-! ### TRAP: the console's calls leave the latch -/

theorem State.SameLatch.trans {s t u : State} (h : s.SameLatch t) (h' : t.SameLatch u) : s.SameLatch u :=
  ⟨h'.1.trans h.1, h'.2.trans h.2⟩

/-- A next state in the answer has the latch of `s`. -/
def State.AnswersSameLatch (s : State) (r : Result) : Prop := ∀ t, r = .next t → s.SameLatch t

namespace State.AnswersSameLatch

variable {s t : State} {r : Result}

theorem next (h : s.SameLatch t) : s.AnswersSameLatch (.next t) := by
  rintro _ ⟨⟩
  exact h

theorem of_sameLatch (h : s.SameLatch t) (hr : t.AnswersSameLatch r) : s.AnswersSameLatch r := fun u hu => h.trans (hr u hu)

theorem hostWrite {f : State → Result} (c : Byte) (hf : ∀ t : State, t.AnswersSameLatch (f t)) :
    s.AnswersSameLatch ((s.hostWrite c).andThen f) := by
  obtain ⟨t, hwritten, -, hready, hdata, -⟩ | hfails := s.hostWrite_byAccess c
  · rw [hwritten]
    exact of_sameLatch ⟨hready, hdata⟩ (hf t)
  · rw [hfails]
    exact next ⟨rfl, rfl⟩

theorem hostWriteAll {f : State → Result} (bytes : List Byte) (hf : ∀ t : State, t.AnswersSameLatch (f t)) :
    s.AnswersSameLatch ((s.hostWriteAll bytes).andThen f) := by
  obtain ⟨t, hwritten, -, hready, hdata, -⟩ | ⟨t, -, hfails, -, hready, hdata, -⟩ := s.hostWriteAll_byAccess bytes
  · rw [hwritten]
    exact of_sameLatch ⟨hready, hdata⟩ (hf t)
  · rw [hfails]
    exact next ⟨hready, hdata⟩

theorem hostRead {f : Byte → State → Result} (hf : ∀ c (t : State), t.AnswersSameLatch (f c t)) :
    s.AnswersSameLatch (s.hostRead.andThen f) := by
  cases h : s.hostRead with
  | yields c t =>
    obtain ⟨-, hready, hdata, -⟩ := hostRead_yields h
    exact of_sameLatch ⟨hready, hdata⟩ (hf c t)
  | fails t =>
    obtain ⟨-, hready, hdata, -⟩ := hostRead_fails h
    exact next ⟨hready, hdata⟩
  | blocks => exact nofun

theorem execGetc (s : State) : s.AnswersSameLatch (execGetc s) := by
  rw [Machine.execGetc, serviceGetc_eq]
  exact of_sameLatch ⟨rfl, rfl⟩ (hostRead fun _ _ => next ⟨rfl, rfl⟩)

theorem execOut (s : State) : s.AnswersSameLatch (execOut s) := by
  rw [Machine.execOut, serviceOut_eq]
  exact of_sameLatch ⟨rfl, rfl⟩ (hostWrite _ fun _ => next ⟨rfl, rfl⟩)

theorem execIn (s : State) : s.AnswersSameLatch (execIn s) := by
  rw [Machine.execIn, serviceIn_eq]
  exact of_sameLatch ⟨rfl, rfl⟩ <| hostWriteAll _ fun _ => hostRead fun _ _ => hostWrite _ fun _ => next ⟨rfl, rfl⟩

theorem execHalt (s : State) : s.AnswersSameLatch (execHalt s) := by
  rw [Machine.execHalt, serviceHalt_eq]
  exact of_sameLatch ⟨rfl, rfl⟩ (hostWriteAll _ fun _ => next ⟨rfl, rfl⟩)

/-- Of the services PUTS alone reads memory. -/
theorem execTrap {v : Byte} (hv : v ≠ 0x22) (s : State) : s.AnswersSameLatch (execTrap v s) := by
  obtain ⟨-, e⟩ | ⟨-, e⟩ | ⟨hputs, -⟩ | ⟨-, e⟩ | ⟨-, e⟩ | ⟨-, e⟩ := execTrap_cases v s
  · exact e ▸ execGetc s
  · exact e ▸ execOut s
  · exact absurd hputs hv
  · exact e ▸ execIn s
  · exact e ▸ execHalt s
  · exact e ▸ next ⟨rfl, rfl⟩

end State.AnswersSameLatch

theorem sameLatch_of_isTrap {i : Instr} {s t : State} (h : exec i s = .next t) (hi : isTrap i) (hreads : ¬ readsMemory i) :
    s.SameLatch t := by
  obtain rfl | rfl | rfl | rfl | rfl | ⟨v, rfl⟩ := hi
  · exact State.AnswersSameLatch.execGetc s t h
  · exact State.AnswersSameLatch.execOut s t h
  · simp [readsMemory] at hreads
  · exact State.AnswersSameLatch.execIn s t h
  · exact State.AnswersSameLatch.execHalt s t h
  · exact State.AnswersSameLatch.execTrap (by simpa [readsMemory] using hreads) s t h

/-! ### The sequencer's kept address and word -/

theorem State.Effect.fetch_kept {i : Instr} {s t : State} (h : s.Effect i t) :
    t.fetchAddr = s.fetchAddr ∧ t.fetchWord = s.fetchWord := by
  cases h with
  | writesReg _ hu => exact ⟨hu.fetchAddr, hu.fetchWord⟩
  | stores _ hu => exact ⟨hu.fetchAddr, hu.fetchWord⟩
  | jumps _ => exact ⟨rfl, rfl⟩
  | calls _ _ => exact ⟨rfl, rfl⟩
  | illegal _ => exact ⟨rfl, rfl⟩
  | trapReturns _ hu => exact ⟨hu.fetchAddr, hu.fetchWord⟩
  | trapReads _ hu => exact ⟨hu.fetchAddr, hu.fetchWord⟩
  | trapHalts _ hu => exact ⟨hu.fetchAddr, hu.fetchWord⟩
  | trapFaults _ hu => exact ⟨hu.fetchAddr, hu.fetchWord⟩

end Sys2Proof.Machine

namespace Sys2Proof.Proofs

open Sys2Proof.Machine Sys2Proof.Claims

/-- Settles O49: an instruction other than TRAP by its reads of memory, a TRAP by its service. -/
theorem consoleFrame : Obligations.ConsoleFrame := by
  intro i s t h
  refine ⟨fun hreads hi => ?console, fun hi => ?output, fun hreads => ?latch, (exec_effect h).fetch_kept⟩
  case console =>
    obtain ⟨-, hconsole⟩ | ⟨hreader, -⟩ := exec_devices_of_not_isTrap h hi
    · exact hconsole
    · exact absurd hreader hreads
  case output =>
    obtain ⟨-, hconsole⟩ | ⟨-, u, hu, -, hconsole⟩ := exec_devices_of_not_isTrap h hi
    · exact congrArg Console.output hconsole
    · exact (congrArg Console.output hconsole).trans hu.output
  case latch =>
    by_cases hi : isTrap i
    · exact sameLatch_of_isTrap h hi hreads
    · obtain ⟨hlatch, -⟩ | ⟨hreader, -⟩ := exec_devices_of_not_isTrap h hi
      · exact hlatch
      · exact absurd hreader hreads

end Sys2Proof.Proofs
end
